-- ==== Sys2Proof/Word.lean ====
section
/-! DEFINITION. The words of the machine: fixed-width bit strings (spec/00_scope.md R10, R11).
Bit 0 is the least significant bit, and every value is unsigned. -/

namespace Sys2Proof

/-- An 8-bit value: a general register, a timer, an RPL slot, a byte of memory. -/
abbrev Byte := BitVec 8

/-- A 16-bit value: an instruction word, `PC`, `I`, a return address. -/
abbrev Word := BitVec 16

/-- A 12-bit address operand (`NNN`). -/
abbrev Addr := BitVec 12

/-- A 4-bit field of an instruction word. -/
abbrev Nibble := BitVec 4

/-- A register number: the `X` or `Y` field of an instruction. -/
abbrev Reg := BitVec 4

/-- The flag register `VF` is general register 15 (R12, R19). -/
abbrev vf : Reg := 0xF#4

end Sys2Proof
end

