-- ==== Sys2Proof/Syntax.lean ====
section
/-! DEFINITION. The instructions: one constructor for each of the 55 rows of spec/opcode_table.json
(spec/30_encoding.md R65). `x`, `y` are register numbers, `n`, `nn`, `nnn` the immediates of R61. In the rows of the
0x0 group `u` is the nibble in bits 11..8, which the decoder does not examine (R64): it is kept because a fault
reports the whole word (R152), so no bit of a word is lost. -/

namespace Sys2Proof

inductive Instr where
  /-- `0?E0` clear the display -/
  | cls (u : Nibble)
  /-- `0?EE` return from subroutine -/
  | ret (u : Nibble)
  /-- `0?CN` scroll down N rows -/
  | scd (u n : Nibble)
  /-- `0?DN` scroll up N rows, present only with `SCROLL_UP_ENABLED` -/
  | scu (u n : Nibble)
  /-- `0?FB` scroll right -/
  | scr (u : Nibble)
  /-- `0?FC` scroll left -/
  | scl (u : Nibble)
  /-- `0?FE` select low resolution -/
  | low (u : Nibble)
  /-- `0?FF` select high resolution -/
  | high (u : Nibble)
  /-- every other word of the 0x0 group: no-op retry -/
  | retry0 (nnn : Addr)
  /-- `1NNN` jump -/
  | jp (nnn : Addr)
  /-- `2NNN` call subroutine -/
  | call (nnn : Addr)
  /-- `3XNN` skip if equal to immediate -/
  | seImm (x : Reg) (nn : Byte)
  /-- `4XNN` skip if not equal to immediate -/
  | sneImm (x : Reg) (nn : Byte)
  /-- `5XY0` skip if registers are equal -/
  | seReg (x y : Reg)
  /-- `5XYN`, N ≠ 0: illegal -/
  | illegal5 (x y n : Nibble)
  /-- `6XNN` load immediate -/
  | ldImm (x : Reg) (nn : Byte)
  /-- `7XNN` add immediate -/
  | addImm (x : Reg) (nn : Byte)
  /-- `8XY0` copy register -/
  | ldReg (x y : Reg)
  /-- `8XY1` bitwise OR -/
  | orReg (x y : Reg)
  /-- `8XY2` bitwise AND -/
  | andReg (x y : Reg)
  /-- `8XY3` bitwise XOR -/
  | xorReg (x y : Reg)
  /-- `8XY4` add with carry out -/
  | addReg (x y : Reg)
  /-- `8XY5` subtract -/
  | sub (x y : Reg)
  /-- `8XY6` shift right -/
  | shr (x y : Reg)
  /-- `8XY7` reverse subtract -/
  | subn (x y : Reg)
  /-- `8XYE` shift left -/
  | shl (x y : Reg)
  /-- `8XY8` illegal -/
  | illegal8XY8 (x y : Nibble)
  /-- `8XY9` illegal -/
  | illegal8XY9 (x y : Nibble)
  /-- `8XYA` illegal -/
  | illegal8XYA (x y : Nibble)
  /-- `8XYB` illegal -/
  | illegal8XYB (x y : Nibble)
  /-- `8XYC` illegal -/
  | illegal8XYC (x y : Nibble)
  /-- `8XYD` illegal -/
  | illegal8XYD (x y : Nibble)
  /-- `8XYF` illegal -/
  | illegal8XYF (x y : Nibble)
  /-- `9XY0` skip if registers differ -/
  | sneReg (x y : Reg)
  /-- `9XYN`, N ≠ 0: illegal -/
  | illegal9 (x y n : Nibble)
  /-- `ANNN` load index -/
  | ldI (nnn : Addr)
  /-- `BNNN` jump with offset; the offset register in Schip mode is `X = NNN[11:8]` -/
  | jpV0 (nnn : Addr)
  /-- `CXNN` random byte masked -/
  | rnd (x : Reg) (nn : Byte)
  /-- `DXYN` draw a sprite -/
  | drw (x y : Reg) (n : Nibble)
  /-- `EX9E` skip if key down -/
  | skp (x : Reg)
  /-- `EXA1` skip if key up -/
  | sknp (x : Reg)
  /-- `EXNN`, NN not 9E or A1: illegal -/
  | illegalE (x : Nibble) (nn : Byte)
  /-- `FX07` read the delay timer -/
  | ldVxDt (x : Reg)
  /-- `FX0A` wait for a key -/
  | ldVxK (x : Reg)
  /-- `FX15` set the delay timer -/
  | ldDt (x : Reg)
  /-- `FX18` set the sound timer -/
  | ldSt (x : Reg)
  /-- `FX1E` add register to index -/
  | addI (x : Reg)
  /-- `FX29` address of the small-font glyph -/
  | ldF (x : Reg)
  /-- `FX30` address of the big-font glyph -/
  | ldHf (x : Reg)
  /-- `FX33` store the decimal digits -/
  | ldB (x : Reg)
  /-- `FX55` store V0..VX -/
  | ldMemVx (x : Reg)
  /-- `FX65` load V0..VX -/
  | ldVxMem (x : Reg)
  /-- `FX75` save V0..Vmin(X,7) to the RPL slots -/
  | ldR (x : Reg)
  /-- `FX85` load V0..Vmin(X,7) from the RPL slots -/
  | ldVxR (x : Reg)
  /-- `FXNN`, NN not listed: illegal -/
  | illegalF (x : Nibble) (nn : Byte)
  deriving DecidableEq, Repr

end Sys2Proof
end

