-- ==== Sys2Proof/WellFormed.lean ====
section
/-! DEFINITION. Which instruction terms stand for a word (spec/30_encoding.md R65 to R67): a row with fewer fixed
bits takes only the words that no row with more fixed bits takes. -/

namespace Sys2Proof

/-- The low bytes the 0x0 group recognises (R66), `0xDN` only with `SCROLL_UP_ENABLED` (R145). -/
def recognised0 (scrollUp : Bool) (nn : Byte) : Bool :=
  nn = 0xE0#8 || nn = 0xEE#8 || nn = 0xFB#8 || nn = 0xFC#8 || nn = 0xFE#8 || nn = 0xFF#8
    || nn.extractLsb' 4 4 = 0xC#4 || (nn.extractLsb' 4 4 = 0xD#4 && scrollUp)

/-- The low bytes the 0xE group recognises (R67). -/
def recognisedE (nn : Byte) : Bool := nn = 0x9E#8 || nn = 0xA1#8

/-- The low bytes the 0xF group recognises (R67). -/
def recognisedF (nn : Byte) : Bool :=
  nn = 0x07#8 || nn = 0x0A#8 || nn = 0x15#8 || nn = 0x18#8 || nn = 0x1E#8 || nn = 0x29#8
    || nn = 0x30#8 || nn = 0x33#8 || nn = 0x55#8 || nn = 0x65#8 || nn = 0x75#8 || nn = 0x85#8

/-- The term is the reading of some word, on a core built with this `SCROLL_UP_ENABLED`. Only the rows that yield to
another row, and SCU, have a condition; every other constructor is well formed with every operand. -/
def Instr.wf (scrollUp : Bool) : Instr → Bool
  | .scu _ _ => scrollUp
  | .retry0 nnn => !recognised0 scrollUp (nnn.extractLsb' 0 8)
  | .illegal5 _ _ n => n ≠ 0#4
  | .illegal9 _ _ n => n ≠ 0#4
  | .illegalE _ nn => !recognisedE nn
  | .illegalF _ nn => !recognisedF nn
  | .cls _ | .ret _ | .scd _ _ | .scr _ | .scl _ | .low _ | .high _
  | .jp _ | .call _ | .seImm _ _ | .sneImm _ _ | .seReg _ _
  | .ldImm _ _ | .addImm _ _ | .ldReg _ _ | .orReg _ _ | .andReg _ _ | .xorReg _ _
  | .addReg _ _ | .sub _ _ | .shr _ _ | .subn _ _ | .shl _ _
  | .illegal8XY8 _ _ | .illegal8XY9 _ _ | .illegal8XYA _ _ | .illegal8XYB _ _ | .illegal8XYC _ _
  | .illegal8XYD _ _ | .illegal8XYF _ _
  | .sneReg _ _ | .ldI _ | .jpV0 _ | .rnd _ _ | .drw _ _ _ | .skp _ | .sknp _
  | .ldVxDt _ | .ldVxK _ | .ldDt _ | .ldSt _ | .addI _ | .ldF _ | .ldHf _ | .ldB _
  | .ldMemVx _ | .ldVxMem _ | .ldR _ | .ldVxR _ => true

end Sys2Proof
end

