-- ==== Sys2Proof/Decode.lean ====
section
/-! DEFINITION. The decoder and the encoder (spec/30_encoding.md). Decoding is total: every word is exactly one row,
and a word with no handler is read as the ILLEGAL row it falls in, by name (R60, R65, R67). -/

namespace Sys2Proof

/-! The fields of a word (R61). -/

/-- `T = w[15:12]`, which selects the handler. -/
def fieldT (w : Word) : Nibble := w.extractLsb' 12 4
/-- `X = w[11:8]`. -/
def fieldX (w : Word) : Nibble := w.extractLsb' 8 4
/-- `Y = w[7:4]`. -/
def fieldY (w : Word) : Nibble := w.extractLsb' 4 4
/-- `N = w[3:0]`. -/
def fieldN (w : Word) : Nibble := w.extractLsb' 0 4
/-- `NN = w[7:0]`. -/
def fieldNN (w : Word) : Byte := w.extractLsb' 0 8
/-- `NNN = w[11:0]`. -/
def fieldNNN (w : Word) : Addr := w.extractLsb' 0 12

/-- The 0x0 group dispatches on the low byte alone (R63, R64); what it does not recognise is RETRY0 (R66). -/
def decode0 (scrollUp : Bool) (w : Word) : Instr :=
  let u := fieldX w
  let nn := fieldNN w
  if nn = 0xE0#8 then .cls u
  else if nn = 0xEE#8 then .ret u
  else if nn = 0xFB#8 then .scr u
  else if nn = 0xFC#8 then .scl u
  else if nn = 0xFE#8 then .low u
  else if nn = 0xFF#8 then .high u
  else if fieldY w = 0xC#4 then .scd u (fieldN w)
  else if fieldY w = 0xD#4 ∧ scrollUp = true then .scu u (fieldN w)
  else .retry0 (fieldNNN w)

/-- The 0x5 group selects on `N` (R63, D2). -/
def decode5 (w : Word) : Instr :=
  if fieldN w = 0x0#4 then .seReg (fieldX w) (fieldY w)
  else .illegal5 (fieldX w) (fieldY w) (fieldN w)

/-- The arithmetic group dispatches on the low nibble (R63). -/
def decode8 (w : Word) : Instr :=
  let x := fieldX w
  let y := fieldY w
  match fieldN w with
  | 0x0#4 => .ldReg x y
  | 0x1#4 => .orReg x y
  | 0x2#4 => .andReg x y
  | 0x3#4 => .xorReg x y
  | 0x4#4 => .addReg x y
  | 0x5#4 => .sub x y
  | 0x6#4 => .shr x y
  | 0x7#4 => .subn x y
  | 0x8#4 => .illegal8XY8 x y
  | 0x9#4 => .illegal8XY9 x y
  | 0xA#4 => .illegal8XYA x y
  | 0xB#4 => .illegal8XYB x y
  | 0xC#4 => .illegal8XYC x y
  | 0xD#4 => .illegal8XYD x y
  | 0xE#4 => .shl x y
  | _ => .illegal8XYF x y  -- 0xF

/-- The 0x9 group selects on `N` (R63, D2). -/
def decode9 (w : Word) : Instr :=
  if fieldN w = 0x0#4 then .sneReg (fieldX w) (fieldY w)
  else .illegal9 (fieldX w) (fieldY w) (fieldN w)

/-- The 0xE group selects on `NN` (R63, D2). -/
def decodeE (w : Word) : Instr :=
  let x := fieldX w
  let nn := fieldNN w
  if nn = 0x9E#8 then .skp x
  else if nn = 0xA1#8 then .sknp x
  else .illegalE x nn

/-- The miscellaneous group dispatches on the low byte (R63). -/
def decodeF (w : Word) : Instr :=
  let x := fieldX w
  match fieldNN w with
  | 0x07#8 => .ldVxDt x
  | 0x0A#8 => .ldVxK x
  | 0x15#8 => .ldDt x
  | 0x18#8 => .ldSt x
  | 0x1E#8 => .addI x
  | 0x29#8 => .ldF x
  | 0x30#8 => .ldHf x
  | 0x33#8 => .ldB x
  | 0x55#8 => .ldMemVx x
  | 0x65#8 => .ldVxMem x
  | 0x75#8 => .ldR x
  | 0x85#8 => .ldVxR x
  | nn => .illegalF x nn

/-- `decode`: dispatch on the top nibble to one of 16 handlers (R63, R68). It depends on the word and on the
construction parameter `SCROLL_UP_ENABLED`, on no mode (R74, D1). -/
def decode (scrollUp : Bool) (w : Word) : Instr :=
  match fieldT w with
  | 0x0#4 => decode0 scrollUp w
  | 0x1#4 => .jp (fieldNNN w)
  | 0x2#4 => .call (fieldNNN w)
  | 0x3#4 => .seImm (fieldX w) (fieldNN w)
  | 0x4#4 => .sneImm (fieldX w) (fieldNN w)
  | 0x5#4 => decode5 w
  | 0x6#4 => .ldImm (fieldX w) (fieldNN w)
  | 0x7#4 => .addImm (fieldX w) (fieldNN w)
  | 0x8#4 => decode8 w
  | 0x9#4 => decode9 w
  | 0xA#4 => .ldI (fieldNNN w)
  | 0xB#4 => .jpV0 (fieldNNN w)
  | 0xC#4 => .rnd (fieldX w) (fieldNN w)
  | 0xD#4 => .drw (fieldX w) (fieldY w) (fieldN w)
  | 0xE#4 => decodeE w
  | _ => decodeF w  -- 0xF

/-- The word read from two bytes: big-endian, the byte at the lower address in bits 15..8 (R60, 20_memory.md R50). -/
def wordOfBytes (hi lo : Byte) : Word := hi ++ lo

/-- The byte stored at the lower address of a word (20_memory.md R50). -/
def highByte (w : Word) : Byte := w.extractLsb' 8 8

/-- The byte stored at the higher address of a word (20_memory.md R50). -/
def lowByte (w : Word) : Byte := w.extractLsb' 0 8

/-- The four nibbles of a word joined, `T` in the upper part (R11, R61). -/
def nibbles (t x y n : Nibble) : Word := t ++ x ++ y ++ n

/-- `T`, `X` and an 8-bit field joined. -/
def nibblesByte (t x : Nibble) (nn : Byte) : Word := t ++ x ++ nn

/-- `T` and a 12-bit field joined. -/
def nibbleAddr (t : Nibble) (nnn : Addr) : Word := t ++ nnn

/-- The word of an instruction, from the patterns of R65. -/
def encode : Instr → Word
  | .cls u => nibblesByte 0x0#4 u 0xE0#8
  | .ret u => nibblesByte 0x0#4 u 0xEE#8
  | .scd u n => nibbles 0x0#4 u 0xC#4 n
  | .scu u n => nibbles 0x0#4 u 0xD#4 n
  | .scr u => nibblesByte 0x0#4 u 0xFB#8
  | .scl u => nibblesByte 0x0#4 u 0xFC#8
  | .low u => nibblesByte 0x0#4 u 0xFE#8
  | .high u => nibblesByte 0x0#4 u 0xFF#8
  | .retry0 nnn => nibbleAddr 0x0#4 nnn
  | .jp nnn => nibbleAddr 0x1#4 nnn
  | .call nnn => nibbleAddr 0x2#4 nnn
  | .seImm x nn => nibblesByte 0x3#4 x nn
  | .sneImm x nn => nibblesByte 0x4#4 x nn
  | .seReg x y => nibbles 0x5#4 x y 0x0#4
  | .illegal5 x y n => nibbles 0x5#4 x y n
  | .ldImm x nn => nibblesByte 0x6#4 x nn
  | .addImm x nn => nibblesByte 0x7#4 x nn
  | .ldReg x y => nibbles 0x8#4 x y 0x0#4
  | .orReg x y => nibbles 0x8#4 x y 0x1#4
  | .andReg x y => nibbles 0x8#4 x y 0x2#4
  | .xorReg x y => nibbles 0x8#4 x y 0x3#4
  | .addReg x y => nibbles 0x8#4 x y 0x4#4
  | .sub x y => nibbles 0x8#4 x y 0x5#4
  | .shr x y => nibbles 0x8#4 x y 0x6#4
  | .subn x y => nibbles 0x8#4 x y 0x7#4
  | .shl x y => nibbles 0x8#4 x y 0xE#4
  | .illegal8XY8 x y => nibbles 0x8#4 x y 0x8#4
  | .illegal8XY9 x y => nibbles 0x8#4 x y 0x9#4
  | .illegal8XYA x y => nibbles 0x8#4 x y 0xA#4
  | .illegal8XYB x y => nibbles 0x8#4 x y 0xB#4
  | .illegal8XYC x y => nibbles 0x8#4 x y 0xC#4
  | .illegal8XYD x y => nibbles 0x8#4 x y 0xD#4
  | .illegal8XYF x y => nibbles 0x8#4 x y 0xF#4
  | .sneReg x y => nibbles 0x9#4 x y 0x0#4
  | .illegal9 x y n => nibbles 0x9#4 x y n
  | .ldI nnn => nibbleAddr 0xA#4 nnn
  | .jpV0 nnn => nibbleAddr 0xB#4 nnn
  | .rnd x nn => nibblesByte 0xC#4 x nn
  | .drw x y n => nibbles 0xD#4 x y n
  | .skp x => nibblesByte 0xE#4 x 0x9E#8
  | .sknp x => nibblesByte 0xE#4 x 0xA1#8
  | .illegalE x nn => nibblesByte 0xE#4 x nn
  | .ldVxDt x => nibblesByte 0xF#4 x 0x07#8
  | .ldVxK x => nibblesByte 0xF#4 x 0x0A#8
  | .ldDt x => nibblesByte 0xF#4 x 0x15#8
  | .ldSt x => nibblesByte 0xF#4 x 0x18#8
  | .addI x => nibblesByte 0xF#4 x 0x1E#8
  | .ldF x => nibblesByte 0xF#4 x 0x29#8
  | .ldHf x => nibblesByte 0xF#4 x 0x30#8
  | .ldB x => nibblesByte 0xF#4 x 0x33#8
  | .ldMemVx x => nibblesByte 0xF#4 x 0x55#8
  | .ldVxMem x => nibblesByte 0xF#4 x 0x65#8
  | .ldR x => nibblesByte 0xF#4 x 0x75#8
  | .ldVxR x => nibblesByte 0xF#4 x 0x85#8
  | .illegalF x nn => nibblesByte 0xF#4 x nn

/-- The word the opcode table numbers as `w` in `nbits` bits: a table word is one 16-bit instruction word, bit 0 its
least significant bit (98_reader.md). -/
def tableWord (nbits w : Nat) : Word := BitVec.ofNat 16 (w % 2 ^ nbits)

/-- The instruction of a word of the opcode table, on a core that has every row of the table: the row SCU N exists
only with `SCROLL_UP_ENABLED` (R144, R145), so the table is read with that parameter true (log 8). The word goes
through its two bytes as the hardware stores them. -/
def decodeTableWord (nbits w : Nat) : Option Instr :=
  some (decode true (wordOfBytes (highByte (tableWord nbits w)) (lowByte (tableWord nbits w))))

end Sys2Proof
end

