-- ==== Sys2Proof/Config.lean ====
section
/-! DEFINITION. What is fixed when the core is constructed (spec/00_scope.md R8, R9), and the two OPEN values
of the spec, which no definition of the model gives a value. -/

namespace Sys2Proof

/-- The interpreter mode (R2, R3): chosen by `power_and_load`, never written by an instruction. -/
inductive Mode where
  | cosmacVIP
  | schip
  | xoChip
  deriving DecidableEq, Repr

/-- Where a shift takes its source from: `V[X]` or `V[Y]` (R8 `SHIFT_SOURCE`). -/
inductive ShiftSource where
  | x
  | y
  deriving DecidableEq, Repr

/-- Which register BNNN adds: `V[0]` or `V[X]` (R8 `JUMP_OFFSET`). -/
inductive JumpOffset where
  | v0
  | vx
  deriving DecidableEq, Repr

/-- A flag with one value for each interpreter mode. -/
structure ByMode where
  cosmacVIP : Bool
  schip : Bool
  xoChip : Bool
  deriving DecidableEq, Repr

/-- The construction parameters of R8 that the document does not fix. The model takes them as data, so a statement
about every state holds for every value of them. They are not Machine State (R33): no step and no transaction
writes them. -/
structure Params where
  /-- `LOGIC_VF_RESET(MODE)`: whether OR, AND and XOR clear `VF` (90_conflicts.md C1). -/
  logicVfReset : ByMode
  /-- `WRAPAROUND`: the value of the `wraparound` flag (R30, D12). -/
  wraparound : Bool
  /-- `SPRITE_ORIGIN_WRAP`: whether a sprite's origin wraps first (R137, D11). -/
  spriteOriginWrap : Bool
  /-- `SCROLL_UP_ENABLED`: whether `0?DN` is SCU N (R145, D5). -/
  scrollUpEnabled : Bool
  /-- `FONT_SMALL`: the bytes written at 0x000 (R47, D20). -/
  fontSmall : List Byte
  /-- `BIG_FONT_BASE`: where the big font stands (R48, D19). -/
  bigFontBase : Addr
  /-- `BIG_FONT`: the big font's bytes (R48, D19). -/
  bigFont : List Byte
  deriving DecidableEq, Repr

/-- A free value: byte `k` of the parameter `BIG_FONT`, which the spec leaves OPEN (R48, D19; log 3). Nothing
can evaluate it, so no proof depends on a glyph byte. -/
opaque Config.bigFontByte : Nat → Byte

/-- A free value: draw number `k` of the random source, under no law (R112, D26; log 4). -/
opaque Config.freeDraw : Nat → Byte

end Sys2Proof
end

