-- ==== Sys2Proof/Machine/Defaults.lean ====
section
/-! DEFINITION. The default values of the construction parameters (spec/00_scope.md R8) and what a byte of memory holds
after reset (spec/20_memory.md R46 to R48; 70_reset_and_hazards.md R168). -/

namespace Sys2Proof.Machine

/-- `MEM_SIZE` (R8, R43): addresses 0x000..0xFFF. -/
def memSize : Nat := 0x1000

/-- `PROGRAM_BASE` (R8, R46): where a program is loaded and where execution starts (R49). -/
def programBase : Nat := 0x200

/-- The longest ROM `power_and_load` takes (R8, R36). -/
def maxRom : Nat := 0x1000 - 0x200

/-- Glyphs 0 to 7 of the small font (R47). -/
def fontSmallLow : List Byte :=
  [0xF0#8, 0x90#8, 0x90#8, 0x90#8, 0xF0#8] ++ [0x20#8, 0x60#8, 0x20#8, 0x20#8, 0x70#8] ++
  [0xF0#8, 0x10#8, 0xF0#8, 0x80#8, 0xF0#8] ++ [0xF0#8, 0x10#8, 0xF0#8, 0x10#8, 0xF0#8] ++
  [0x90#8, 0x90#8, 0xF0#8, 0x10#8, 0x10#8] ++ [0xF0#8, 0x80#8, 0xF0#8, 0x10#8, 0xF0#8] ++
  [0xF0#8, 0x80#8, 0xF0#8, 0x90#8, 0xF0#8] ++ [0xF0#8, 0x10#8, 0x20#8, 0x40#8, 0x40#8]

/-- Glyphs 8 to F of the small font (R47). -/
def fontSmallHigh : List Byte :=
  [0xF0#8, 0x90#8, 0xF0#8, 0x90#8, 0xF0#8] ++ [0xF0#8, 0x90#8, 0xF0#8, 0x10#8, 0xF0#8] ++
  [0xF0#8, 0x90#8, 0xF0#8, 0x90#8, 0x90#8] ++ [0xE0#8, 0x90#8, 0xE0#8, 0x90#8, 0xE0#8] ++
  [0xF0#8, 0x80#8, 0x80#8, 0x80#8, 0xF0#8] ++ [0xE0#8, 0x90#8, 0x90#8, 0x90#8, 0xE0#8] ++
  [0xF0#8, 0x80#8, 0xF0#8, 0x80#8, 0xF0#8] ++ [0xF0#8, 0x80#8, 0xF0#8, 0x80#8, 0x80#8]

/-- The default of `FONT_SMALL`: the 80 bytes of R47's table. -/
def fontSmallDefault : List Byte := fontSmallLow ++ fontSmallHigh

/-- `BIG_FONT`: 160 bytes whose values are free (R48, D19; log 3). -/
def bigFontOpen : List Byte := (List.range 160).map Config.bigFontByte

/-- The parameters' default values (R8). -/
def defaultParams : Params where
  logicVfReset := { cosmacVIP := true, schip := false, xoChip := false }
  wraparound := false
  spriteOriginWrap := false
  scrollUpEnabled := false
  fontSmall := fontSmallDefault
  bigFontBase := 0x050#12
  bigFont := bigFontOpen

/-- What an address nothing has written since reset holds: the big font, written over the small font, and 0
everywhere else (R168; the ROM's bytes are listed in the memory). -/
def resetByte (p : Params) (a : Nat) : Byte :=
  if p.bigFontBase.toNat ≤ a ∧ a < p.bigFontBase.toNat + p.bigFont.length then
    p.bigFont.getD (a - p.bigFontBase.toNat) 0#8
  else p.fontSmall.getD a 0#8

end Sys2Proof.Machine
end

