-- ==== Sys2Proof/Machine/State.lean ====
section
/-! DEFINITION. The state of the machine, as plain data (spec/10_state.md), the faults and refusals, and the state
after reset (spec/70_reset_and_hazards.md R169). -/

namespace Sys2Proof.Machine

/-- The faults and errors of the spec's taxonomy (60_exceptions.md R152). The first three are cycle faults: the core
reports them and can go on, so a step that raises one is a NEXT state that records it (R77, R84, R159; log 5), and
`Host.Outcome.fault` is not used for them. All four are the spec's own behaviour: safe. -/
inductive Fault where
  /-- Raised by a cycle that decodes an illegal word (R153); carries the word. Recorded, not a stop: safe. -/
  | illegalOpcode (w : Word)
  /-- Raised by CALL on a full stack (R89, R154); carries the word. Recorded, not a stop: safe. -/
  | stackOverflow (w : Word)
  /-- Raised by RET on an empty stack (R87, R154); carries the word. Recorded, not a stop: safe. -/
  | stackUnderflow (w : Word)
  /-- Answered by `powerAndLoad` for a ROM that is too long (R155); carries its length. The call changes nothing:
  safe. No step answers it. -/
  | romTooLarge (length : Nat)
  deriving DecidableEq, Repr

/-- Why there is no step or no transaction. -/
inductive Refusal where
  /-- An instruction without a meaning yet; only exec's arms answer it. Safe. -/
  | notModelled (mnemonic : String)
  /-- `step` (the transaction `cycle()`) while `Powered` is false: no step (R31, R71, D22). Safe. -/
  | notPowered
  /-- `setInput` with a key outside 0..15 spells no call (R37). Safe. -/
  | noSuchKey (key : Nat)
  /-- `restore` with a state of a core built with other parameters: no snapshot of this core (R41; log 15). Safe. -/
  | foreignSnapshot
  deriving DecidableEq, Repr

/-- What a call of `cycle()` returns (R38, R76, R77). -/
inductive CycleResult where
  | completed (draw : Bool)
  | faulted (f : Fault)
  deriving DecidableEq, Repr

/-- What stands beside the Machine State and is no part of it (R33): the construction parameters, the random source,
and what the host has been told. -/
structure Outside where
  /-- The construction parameters (R8). -/
  params : Params
  /-- How many random draws have been taken: the next one is `Config.freeDraw draws` (R112; log 4). -/
  draws : Nat
  /-- The results `cycle()` returned, newest first, completed and faulted ones in one order (R38; 70_reset_and_hazards.md
  R176; log 5). -/
  results : List CycleResult
  deriving DecidableEq, Repr

/-- The display grid (R28): 64 rows, row 0 the top one; in a row, bit `x` is the pixel of column `x`, column 0 the
left one (log 10). -/
abbrev Grid := Vector (BitVec 128) 64

/-- The Machine State (R18) and what stands beside it. -/
structure State where
  /-- `V[0..16)` (R19) -/
  v : Vector Byte 16
  /-- `I` (R22) -/
  i : Word
  /-- `PC` (R20) -/
  pc : Word
  /-- `Stack` (R21); the first `STACK_DEPTH(Mode)` entries exist (log 11) -/
  stack : Vector Word 16
  /-- `SP`, the number of entries in use (R21) -/
  sp : Fin 17
  /-- `RPL[0..8)` (R23) -/
  rpl : Vector Byte 8
  /-- `Delay` (R24) -/
  delay : Byte
  /-- `Sound` (R24) -/
  sound : Byte
  /-- `Input[0..16)` (R25) -/
  input : Vector Bool 16
  /-- `Memory` (R26): the cells that differ from their reset contents, addresses rising -/
  mem : List Host.Cell
  /-- `Mode` (R27) -/
  mode : Mode
  /-- `Grid` (R28) -/
  grid : Grid
  /-- `hiresMode` (R29) -/
  hiresMode : Bool
  /-- `wraparound` (R30) -/
  wraparound : Bool
  /-- `Powered` (R31) -/
  powered : Bool
  /-- `Draw` (R32) -/
  draw : Bool
  /-- what is not Machine State (R33) -/
  outside : Outside
  deriving DecidableEq, Repr

/-- The machine right after reset (R169): a successful `power_and_load` of an empty ROM in CosmacVIP mode (log 1) on
a core with the default parameters (R8), before any cycle. -/
def State.reset : State where
  v := Vector.replicate 16 0#8
  i := 0#16
  pc := 0x200#16
  stack := Vector.replicate 16 0#16
  sp := 0
  rpl := Vector.replicate 8 0#8
  delay := 0#8
  sound := 0#8
  input := Vector.replicate 16 false
  mem := []
  mode := .cosmacVIP
  grid := Vector.replicate 64 0#128
  hiresMode := false
  wraparound := defaultParams.wraparound
  powered := true
  draw := false
  outside := { params := defaultParams, draws := 0, results := [] }

end Sys2Proof.Machine
end

