-- ==== Sys2Proof/Machine/Ops.lean ====
section
/-! DEFINITION. The named operations over memory and registers, the fetch, and the two ways a cycle ends: completed or
faulted (spec/00_scope.md R13; 20_memory.md; 40_dispatch.md). Meanings are written over these. -/

namespace Sys2Proof.Machine

/-! ### Memory as a list of cells -/

/-- The listed byte of an address, if there is one. -/
def memLookup : List Host.Cell → Nat → Option Byte
  | [], _ => none
  | c :: m, a => if c.1 = a then some c.2 else memLookup m a

/-- Take every entry of an address out. -/
def memErase : List Host.Cell → Nat → List Host.Cell
  | [], _ => []
  | c :: m, a => if c.1 = a then memErase m a else c :: memErase m a

/-- Put an entry in its place, over an older one of the same address. -/
def memInsert : List Host.Cell → Nat → Byte → List Host.Cell
  | [], a, v => [(a, v)]
  | c :: m, a, v =>
    if a < c.1 then (a, v) :: c :: m
    else if a = c.1 then (a, v) :: m
    else c :: memInsert m a v

/-- The byte at an address: the listed one, or what the address held after reset. -/
def Memory.read (p : Params) (m : List Host.Cell) (a : Nat) : Byte := (memLookup m a).getD (resetByte p a)

/-- Set the byte at an address, keeping the canonical form: a byte that equals the reset contents is not listed. -/
def Memory.write (p : Params) (m : List Host.Cell) (a : Nat) (v : Byte) : List Host.Cell :=
  if v = resetByte p a then memErase m a else memInsert m a v

/-- The canonical form from an address on: addresses rise strictly, lie inside the 4096 bytes (R43), and no entry
equals what the address reads as without one. -/
def memWfFrom (p : Params) : Nat → List Host.Cell → Bool
  | _, [] => true
  | lo, c :: m => decide (lo ≤ c.1) && decide (c.1 < memSize) && decide (c.2 ≠ resetByte p c.1)
      && memWfFrom p (c.1 + 1) m

/-- The canonical form of a memory: equal memories are equal lists. -/
def Memory.wf (p : Params) (m : List Host.Cell) : Bool := memWfFrom p 0 m

/-! ### Memory accesses of a cycle -/

/-- `mask12` (R11): every byte address is reduced to 12 bits when it is used (R45). -/
def mask12 (a : Nat) : Nat := a % memSize

/-- `MemRead(a, 1)` (R13). -/
def State.memRead (s : State) (a : Nat) : Byte := Memory.read s.outside.params s.mem (mask12 a)

/-- `MemWrite(a, 1, v)` (R13). -/
def State.memWrite (s : State) (a : Nat) (v : Byte) : State :=
  { s with mem := Memory.write s.outside.params s.mem (mask12 a) v }

/-- Bytes written at ascending addresses from `a`, each address masked apart (R45, R52). -/
def State.storeBytes (s : State) (a : Nat) : List Byte → State
  | [] => s
  | b :: bs => (s.memWrite a b).storeBytes (a + 1) bs

/-- `n` bytes read at ascending addresses from `a`, each address masked apart (R45, R52). -/
def State.loadBytes (s : State) (a n : Nat) : List Byte := (List.range n).map fun k => s.memRead (a + k)

/-! ### Registers -/

/-- `V[r]` (R12, R19). -/
def State.reg (s : State) (r : Reg) : Byte := s.v[r.toNat]'r.isLt

/-- `V[r] <- b` (R12, R19). -/
def State.setReg (s : State) (r : Reg) (b : Byte) : State := { s with v := s.v.set r.toNat b r.isLt }

/-- The result goes to `V[x]` first and the flag to `VF` last, so that with `x = F` the flag stays (R14, R99, D9). -/
def State.setResultFlag (s : State) (x : Reg) (result flag : Byte) : State := (s.setReg x result).setReg vf flag

/-- `PC <- target` (R12). -/
def State.setPc (s : State) (target : Word) : State := { s with pc := target }

/-- `I <- value` (R12). -/
def State.setI (s : State) (value : Word) : State := { s with i := value }

/-! ### The fetch and the moves of `PC` -/

/-- The word at `PC`, big-endian, each byte's address masked (R50, R51, R72). -/
def State.fetch (s : State) : Word := wordOfBytes (s.memRead s.pc.toNat) (s.memRead (s.pc.toNat + 1))

/-- The provisional advance before dispatch (R73). -/
def State.advance (s : State) : State := s.setPc (s.pc + 2#16)

/-- `skip` (R13, R81), taken when the condition holds. -/
def State.skipIf (s : State) (condition : Bool) : State := if condition then s.setPc (s.pc + 2#16) else s

/-- `retry` (R13): `PC` back to the word just fetched. -/
def State.retry (s : State) : State := s.setPc (s.pc - 2#16)

/-! ### The call stack -/

/-- Push a return address (R89). The caller has checked that there is room. -/
def State.push (s : State) (a : Word) : State :=
  { s with stack := s.stack.setIfInBounds s.sp.val a, sp := Fin.ofNat 17 (s.sp.val + 1) }

/-- The entry below the top of the stack: what RET takes (R87). -/
def State.topOfStack (s : State) : Word := s.stack[s.sp.val - 1]'(by have := s.sp.isLt; omega)

/-- One entry fewer in use; the entry itself is not cleared (R87). -/
def State.pop (s : State) : State := { s with sp := Fin.ofNat 17 (s.sp.val - 1) }

/-! ### The random source -/

/-- The draw this cycle gets (R112): a free value (log 4). -/
def State.nextDraw (s : State) : Byte := Config.freeDraw s.outside.draws

/-- One draw has been taken (R112). -/
def State.drawTaken (s : State) : State :=
  { s with outside := { s.outside with draws := s.outside.draws + 1 } }

/-! ### How a cycle ends -/

/-- `cycle()` returns `r` to the host (R38): the list of results grows by it. -/
def Outside.returned (o : Outside) (r : CycleResult) : Outside := { o with results := r :: o.results }

/-- What the latest `cycle()` returned, `none` before the first (R38). -/
def Outside.result (o : Outside) : Option CycleResult := o.results.head?

/-- The fault a result carries, if it is one. -/
def faultOfResult : CycleResult → Option Fault
  | .completed _ => none
  | .faulted f => some f

/-- Every fault surfaced to the host, newest first (D23). -/
def Outside.faults (o : Outside) : List Fault := o.results.filterMap faultOfResult

/-- A completed cycle commits its state, writes `Draw` and returns `Completed(draw)` (R76, R141, D10). -/
def complete (draw : Bool) (s : State) : Host.Outcome State Fault Refusal :=
  .next { s with draw := draw, outside := s.outside.returned (.completed draw) }

/-- Taking a fault (R13 `raise`, R77, R159): only the provisional `PC` advance, already made in `s`, is kept; nothing
is saved in the Machine State, `Draw` keeps its value, and the fault is surfaced to the host, which may call `cycle()`
again at the next word (R84; log 5). -/
def raise (f : Fault) (s : State) : Host.Outcome State Fault Refusal :=
  .next { s with outside := s.outside.returned (.faulted f) }

/-- An illegal word raises `IllegalOpcode` with the whole word (R153). -/
def raiseIllegal (i : Instr) (s : State) : Host.Outcome State Fault Refusal := raise (.illegalOpcode (encode i)) s

end Sys2Proof.Machine
end

