-- ==== Sys2Proof/Machine/Operands.lean ====
section
/-! DEFINITION. The mode policy (spec/10_state.md R27) and the operand forms of the instructions (30_encoding.md R62). -/

namespace Sys2Proof.Machine

/-! ### The mode policy -/

/-- The value of a per-mode flag in a mode. -/
def byMode (b : ByMode) : Mode → Bool
  | .cosmacVIP => b.cosmacVIP
  | .schip => b.schip
  | .xoChip => b.xoChip

/-- `STACK_DEPTH(Mode)` (R21, R27). -/
def stackDepth : Mode → Nat
  | .cosmacVIP => 12
  | .schip => 16
  | .xoChip => 16

/-- `SHIFT_SOURCE(Mode)` (R27). -/
def shiftSource : Mode → ShiftSource
  | .cosmacVIP => .y
  | .schip => .x
  | .xoChip => .y

/-- `JUMP_OFFSET(Mode)` (R27). -/
def jumpOffset : Mode → JumpOffset
  | .cosmacVIP => .v0
  | .schip => .vx
  | .xoChip => .v0

/-- `INDEX_INCREMENT(Mode)` (R27). -/
def indexIncrement : Mode → Bool
  | .cosmacVIP => true
  | .schip => false
  | .xoChip => true

/-- `LOGIC_VF_RESET(Mode)` (R27, 90_conflicts.md C1). -/
def logicVfReset (s : State) : Bool := byMode s.outside.params.logicVfReset s.mode

/-! ### Operands -/

/-- An address operand: `zext_16(NNN)` (R62). -/
def addrOperand (nnn : Addr) : Word := nnn.zeroExtend 16

/-- `X = NNN[11:8]`, "the top nibble of the address operand" (R62). -/
def topNibble (nnn : Addr) : Reg := nnn.extractLsb' 8 4

/-- The source of a shift: `V[X]` or `V[Y]` by the mode (R107, R108). -/
def shiftOperand (s : State) (x y : Reg) : Byte :=
  match shiftSource s.mode with
  | .x => s.reg x
  | .y => s.reg y

/-- The offset BNNN adds: `V[0]`, or `V[X]` by the mode (R94). -/
def jumpOffsetOperand (s : State) (nnn : Addr) : Byte :=
  match jumpOffset s.mode with
  | .v0 => s.reg 0x0#4
  | .vx => s.reg (topNibble nnn)

/-- The latch of the key that `V[X]` names: only its low nibble selects (R126, D18). -/
def keyDown (s : State) (x : Reg) : Bool := s.input[(s.reg x).toNat % 16]'(Nat.mod_lt _ (by decide))

/-- The least key that is down, if one is (R125, D17). -/
def leastKeyDown (s : State) : Option Nat := (List.range 16).find? fun k => s.input.getD k false

/-- The decimal digits of a byte: hundreds, tens, ones (R117). -/
def decimalDigits (b : Byte) : List Byte :=
  [BitVec.ofNat 8 (b.toNat / 100), BitVec.ofNat 8 (b.toNat / 10 % 10), BitVec.ofNat 8 (b.toNat % 10)]

/-- `V[0], ..., V[X]` (R118). -/
def regsUpTo (s : State) (x : Reg) : List Byte := (List.range (x.toNat + 1)).map fun k => s.reg (BitVec.ofNat 4 k)

/-- `I` after FX55 and FX65: advanced by X+1 where the mode says so, mod 2^16 (R118, R119). -/
def indexAfterTransfer (s : State) (x : Reg) : Word :=
  if indexIncrement s.mode then s.i + BitVec.ofNat 16 (x.toNat + 1) else s.i

end Sys2Proof.Machine
end

