-- ==== Sys2Proof/Machine/Flags.lean ====
section
/-! DEFINITION. Every value an instruction writes to the flag register `VF` (spec/42_alu.md; 45_display.md R150). -/

namespace Sys2Proof.Machine

/-- A flag value: 1 or 0. -/
def flagByte (b : Bool) : Byte := if b then 1#8 else 0#8

/-- The carry of ADD VX, VY: 1 iff the sum is above 255 (R104). -/
def carryFlag (a b : Byte) : Byte := flagByte (decide (a.toNat + b.toNat > 255))

/-- The not-borrow of a subtraction: 1 iff minuend ≥ subtrahend (R105, R106). -/
def notBorrowFlag (minuend subtrahend : Byte) : Byte := flagByte (decide (minuend.toNat ≥ subtrahend.toNat))

/-- The bit a right shift shifts out: bit 0 (R107). -/
def shiftedOutRight (src : Byte) : Byte := flagByte (src.getLsbD 0)

/-- The bit a left shift shifts out: bit 7 (R108). -/
def shiftedOutLeft (src : Byte) : Byte := flagByte (src.getLsbD 7)

/-- The reset of `VF` after OR, AND and XOR, where the policy asks for it (R101 to R103). -/
def State.logicReset (s : State) : State := if logicVfReset s then s.setReg vf 0#8 else s

/-- The collision flag of an 8-wide sprite: 0 or 1 (R150). -/
def collisionFlag (hit : Bool) : Byte := flagByte hit

/-- The row count a big sprite leaves in `VF`, 0..16 (R150). -/
def rowCountFlag (count : Nat) : Byte := BitVec.ofNat 8 count

end Sys2Proof.Machine
end

