-- ==== Sys2Proof/Machine/Alu.lean ====
section
/-! DEFINITION. Register loads, arithmetic and logic (spec/42_alu.md). The operands are read before any write (R99). -/

namespace Sys2Proof.Machine

/-- LD VX, NN (R97). -/
def execLdImm (x : Reg) (nn : Byte) (s : State) : Host.Outcome State Fault Refusal := complete false (s.setReg x nn)

/-- ADD VX, NN (R98): mod 256, no flag. -/
def execAddImm (x : Reg) (nn : Byte) (s : State) : Host.Outcome State Fault Refusal :=
  complete false (s.setReg x (s.reg x + nn))

/-- LD VX, VY (R100). -/
def execLdReg (x y : Reg) (s : State) : Host.Outcome State Fault Refusal := complete false (s.setReg x (s.reg y))

/-- OR VX, VY (R101). -/
def execOr (x y : Reg) (s : State) : Host.Outcome State Fault Refusal :=
  complete false (s.setReg x (s.reg x ||| s.reg y)).logicReset

/-- AND VX, VY (R102). -/
def execAnd (x y : Reg) (s : State) : Host.Outcome State Fault Refusal :=
  complete false (s.setReg x (s.reg x &&& s.reg y)).logicReset

/-- XOR VX, VY (R103). -/
def execXor (x y : Reg) (s : State) : Host.Outcome State Fault Refusal :=
  complete false (s.setReg x (s.reg x ^^^ s.reg y)).logicReset

/-- ADD VX, VY (R104). -/
def execAddReg (x y : Reg) (s : State) : Host.Outcome State Fault Refusal :=
  complete false (s.setResultFlag x (s.reg x + s.reg y) (carryFlag (s.reg x) (s.reg y)))

/-- SUB VX, VY (R105). -/
def execSub (x y : Reg) (s : State) : Host.Outcome State Fault Refusal :=
  complete false (s.setResultFlag x (s.reg x - s.reg y) (notBorrowFlag (s.reg x) (s.reg y)))

/-- SUBN VX, VY (R106). -/
def execSubn (x y : Reg) (s : State) : Host.Outcome State Fault Refusal :=
  complete false (s.setResultFlag x (s.reg y - s.reg x) (notBorrowFlag (s.reg y) (s.reg x)))

/-- SHR VX, VY (R107). -/
def execShr (x y : Reg) (s : State) : Host.Outcome State Fault Refusal :=
  complete false (s.setResultFlag x (shiftOperand s x y >>> 1) (shiftedOutRight (shiftOperand s x y)))

/-- SHL VX, VY (R108). -/
def execShl (x y : Reg) (s : State) : Host.Outcome State Fault Refusal :=
  complete false (s.setResultFlag x (shiftOperand s x y <<< 1) (shiftedOutLeft (shiftOperand s x y)))

/-- RND VX, NN (R111): one draw, masked. -/
def execRnd (x : Reg) (nn : Byte) (s : State) : Host.Outcome State Fault Refusal :=
  complete false (s.drawTaken.setReg x (s.nextDraw &&& nn))

end Sys2Proof.Machine
end

