-- ==== Sys2Proof/Machine/Control.lean ====
section
/-! DEFINITION. Control transfer (spec/41_control.md). Every meaning of the families runs on the state `s1` in which `PC`
already holds the address of the next word (R73). -/

namespace Sys2Proof.Machine

/-- RETRY0 (R86): the same word is fetched again. -/
def execRetry0 (_nnn : Addr) (s : State) : Host.Outcome State Fault Refusal := complete false s.retry

/-- RET (R87). -/
def execRet (u : Nibble) (s : State) : Host.Outcome State Fault Refusal :=
  if s.sp.val = 0 then raise (.stackUnderflow (encode (.ret u))) s
  else complete false (s.pop.setPc s.topOfStack)

/-- JP NNN (R88). -/
def execJp (nnn : Addr) (s : State) : Host.Outcome State Fault Refusal := complete false (s.setPc (addrOperand nnn))

/-- CALL NNN (R89). The stack is full when `SP` has reached `STACK_DEPTH(Mode)` (log 11). -/
def execCall (nnn : Addr) (s : State) : Host.Outcome State Fault Refusal :=
  if stackDepth s.mode ≤ s.sp.val then raise (.stackOverflow (encode (.call nnn))) s
  else complete false ((s.push s.pc).setPc (addrOperand nnn))

/-- SE VX, NN (R90). -/
def execSeImm (x : Reg) (nn : Byte) (s : State) : Host.Outcome State Fault Refusal :=
  complete false (s.skipIf (s.reg x == nn))

/-- SNE VX, NN (R91). -/
def execSneImm (x : Reg) (nn : Byte) (s : State) : Host.Outcome State Fault Refusal :=
  complete false (s.skipIf (s.reg x != nn))

/-- SE VX, VY (R92). -/
def execSeReg (x y : Reg) (s : State) : Host.Outcome State Fault Refusal :=
  complete false (s.skipIf (s.reg x == s.reg y))

/-- SNE VX, VY (R93). -/
def execSneReg (x y : Reg) (s : State) : Host.Outcome State Fault Refusal :=
  complete false (s.skipIf (s.reg x != s.reg y))

/-- JP V0, NNN (R94): the sum is kept in `PC` as it is, 16 bits wide. -/
def execJpV0 (nnn : Addr) (s : State) : Host.Outcome State Fault Refusal :=
  complete false (s.setPc (addrOperand nnn + (jumpOffsetOperand s nnn).zeroExtend 16))

end Sys2Proof.Machine
end

