-- ==== Sys2Proof/Machine/Grid.lean ====
section
/-! DEFINITION. The Display Buffer's operations (spec/45_display.md part 2), over a grid. `x` is a column, `y` a row. -/

namespace Sys2Proof.Machine

/-- The physical pixel of column `x`, row `y`; outside the grid there is none, and the answer is false. -/
def pixel (g : Grid) (x y : Nat) : Bool := (g.getD y 0#128).getLsbD x

/-- One physical pixel XORed with 1 (R136). -/
def toggle (g : Grid) (x y : Nat) : Grid := g.setIfInBounds y (g.getD y 0#128 ^^^ BitVec.twoPow 128 x)

/-- The policy under which a sprite is drawn: the resolution (R130), the `wraparound` flag (R30) and
`SPRITE_ORIGIN_WRAP` (R137). -/
structure View where
  hires : Bool
  wrap : Bool
  originWrap : Bool
  deriving DecidableEq, Repr

/-- `W` of the active resolution (R130). -/
def viewWidth (w : View) : Nat := if w.hires then 128 else 64

/-- `H` of the active resolution (R130). -/
def viewHeight (w : View) : Nat := if w.hires then 64 else 32

/-- The physical pixels of a logical pixel (R131). -/
def physicalPixels (hires : Bool) (tx ty : Nat) : List (Nat × Nat) :=
  if hires then [(tx, ty)]
  else [(2 * tx, 2 * ty), (2 * tx + 1, 2 * ty), (2 * tx, 2 * ty + 1), (2 * tx + 1, 2 * ty + 1)]

/-- `flip(tx, ty)` (R136, D13): every physical pixel of the logical pixel is XORed, and the answer is true when one
of them was 1. -/
def flip (hires : Bool) (g : Grid) (tx ty : Nat) : Grid × Bool :=
  let ps := physicalPixels hires tx ty
  (ps.foldl (fun g p => toggle g p.1 p.2) g, ps.any fun p => pixel g p.1 p.2)

/-- Where a sprite pixel lands: wrapped modulo the resolution, or nowhere when it is off-grid (R137, R138). -/
def land (w : View) (x y : Nat) : Option (Nat × Nat) :=
  if w.wrap then some (x % viewWidth w, y % viewHeight w)
  else if x ≥ viewWidth w ∨ y ≥ viewHeight w then none
  else some (x, y)

/-- The sprite's starting point (R137, D11). -/
def spriteOrigin (w : View) (x y : Nat) : Nat × Nat :=
  if w.originWrap then (x % viewWidth w, y % viewHeight w) else (x, y)

/-- One set sprite bit: flipped where it lands. `clippedHits` says whether an off-grid bit counts (R138) or is dropped
(R137). -/
def plot (w : View) (clippedHits : Bool) (acc : Grid × Bool) (x y : Nat) : Grid × Bool :=
  match land w x y with
  | none => (acc.1, acc.2 || clippedHits)
  | some t => let r := flip w.hires acc.1 t.1 t.2; (r.1, acc.2 || r.2)

/-- One sprite row of `n` bits, the most significant the leftmost (R133): only set bits are processed. -/
def drawRow {n : Nat} (w : View) (clippedHits : Bool) (x y : Nat) (row : BitVec n) (g : Grid) : Grid × Bool :=
  (List.range n).foldl (fun acc c => if row.getMsbD c then plot w clippedHits acc (x + c) y else acc) (g, false)

/-- The rows of an 8-wide sprite from row `y` down; true if one of them hit (R137). -/
def drawRows8 (w : View) (x : Nat) : Nat → List Byte → Grid → Grid × Bool
  | _, [], g => (g, false)
  | y, b :: bs, g =>
    let r := drawRow w false x y b g
    let t := drawRows8 w x (y + 1) bs r.1
    (t.1, r.2 || t.2)

/-- The rows of a big sprite from row `y` down; the number of them that collided or were clipped (R138). -/
def drawRows16 (w : View) (x : Nat) : Nat → List Word → Grid → Grid × Nat
  | _, [], g => (g, 0)
  | y, b :: bs, g =>
    let r := drawRow w true x y b g
    let t := drawRows16 w x (y + 1) bs r.1
    (t.1, r.2.toNat + t.2)

/-- `draw_sprite_lores` (R137), the 8-wide sprite of either resolution. -/
def drawSprite8 (w : View) (x y : Nat) (bytes : List Byte) (g : Grid) : Grid × Bool :=
  drawRows8 w (spriteOrigin w x y).1 (spriteOrigin w x y).2 bytes g

/-- `draw_sprite_hires` (R138), the 16×16 sprite. -/
def drawSprite16 (w : View) (x y : Nat) (rows : List Word) (g : Grid) : Grid × Nat :=
  drawRows16 w (spriteOrigin w x y).1 (spriteOrigin w x y).2 rows g

/-- `clear()` (R134). -/
def clearGrid : Grid := Vector.replicate 64 0#128

/-- The distance of a horizontal scroll in physical pixels (R139, D16). -/
def scrollColumns (hires : Bool) : Nat := if hires then 4 else 2

/-- The distance of a vertical scroll in physical rows (R140, D16). -/
def scrollRows (hires : Bool) (count : Nat) : Nat := if hires then count else count - count % 2

/-- Every row moves `d` columns to the right, zeros entering at the left (R139): column `x` is bit `x`. -/
def scrollRight (d : Nat) (g : Grid) : Grid := g.map fun (row : BitVec 128) => row <<< d

/-- Every row moves `d` columns to the left, zeros entering at the right (R139). -/
def scrollLeft (d : Nat) (g : Grid) : Grid := g.map fun (row : BitVec 128) => row >>> d

/-- Every row moves `c` rows down, zeros entering at the top (R140). -/
def scrollDown (c : Nat) (g : Grid) : Grid := Vector.ofFn fun y => if c ≤ y.val then g.getD (y.val - c) 0#128 else 0#128

/-- Every row moves `c` rows up, zeros entering at the bottom (R140). -/
def scrollUp (c : Nat) (g : Grid) : Grid := Vector.ofFn fun y => g.getD (y.val + c) 0#128

end Sys2Proof.Machine
end

