-- ==== Sys2Proof/Machine/Display.lean ====
section
/-! DEFINITION. The display instructions (spec/45_display.md part 3). Each completes with `draw = true` (R141). -/

namespace Sys2Proof.Machine

/-- The policy a sprite is drawn under, in this state. -/
def State.view (s : State) : View :=
  { hires := s.hiresMode, wrap := s.wraparound, originWrap := s.outside.params.spriteOriginWrap }

/-- CLS (R142). -/
def execCls (_u : Nibble) (s : State) : Host.Outcome State Fault Refusal := complete true { s with grid := clearGrid }

/-- SCD N (R143). -/
def execScd (_u n : Nibble) (s : State) : Host.Outcome State Fault Refusal :=
  complete true { s with grid := scrollDown (scrollRows s.hiresMode n.toNat) s.grid }

/-- SCU N (R144). -/
def execScu (_u n : Nibble) (s : State) : Host.Outcome State Fault Refusal :=
  complete true { s with grid := scrollUp (scrollRows s.hiresMode n.toNat) s.grid }

/-- SCR (R146). -/
def execScr (_u : Nibble) (s : State) : Host.Outcome State Fault Refusal :=
  complete true { s with grid := scrollRight (scrollColumns s.hiresMode) s.grid }

/-- SCL (R147). -/
def execScl (_u : Nibble) (s : State) : Host.Outcome State Fault Refusal :=
  complete true { s with grid := scrollLeft (scrollColumns s.hiresMode) s.grid }

/-- LOW (R148): `set_hires(false)`, the grid is kept (R135). -/
def execLow (_u : Nibble) (s : State) : Host.Outcome State Fault Refusal := complete true { s with hiresMode := false }

/-- HIGH (R149): `set_hires(true)`, the grid is kept (R135). -/
def execHigh (_u : Nibble) (s : State) : Host.Outcome State Fault Refusal := complete true { s with hiresMode := true }

/-- Row `r` of a big sprite at `I` (R52, R150): the byte at the lower address is the left half. -/
def State.bigRow (s : State) (r : Nat) : Word :=
  wordOfBytes (s.memRead (s.i.toNat + 2 * r)) (s.memRead (s.i.toNat + 2 * r + 1))

/-- The sixteen rows of the big sprite at `I` (R150). -/
def State.bigRows (s : State) : List Word := (List.range 16).map s.bigRow

/-- DRW VX, VY, N (R150): the coordinates are read before `VF` is written. -/
def execDrw (x y : Reg) (n : Nibble) (s : State) : Host.Outcome State Fault Refusal :=
  let x0 := (s.reg x).toNat
  let y0 := (s.reg y).toNat
  if s.hiresMode && n == 0#4 then
    let r := drawSprite16 s.view x0 y0 s.bigRows s.grid
    complete true (State.setReg { s with grid := r.1 } vf (rowCountFlag r.2))
  else
    let r := drawSprite8 s.view x0 y0 (s.loadBytes s.i.toNat n.toNat) s.grid
    complete true (State.setReg { s with grid := r.1 } vf (collisionFlag r.2))

end Sys2Proof.Machine
end

