-- ==== Sys2Proof/Machine/Illegal.lean ====
section
/-! DEFINITION. The illegal words (spec/60_exceptions.md R153): each raises `IllegalOpcode` with the whole word. -/

namespace Sys2Proof.Machine

/-- `5XYN`, N ≠ 0 (D2). -/
def execIllegal5 (x y n : Nibble) (s : State) : Host.Outcome State Fault Refusal := raiseIllegal (.illegal5 x y n) s

/-- `8XY8`. -/
def execIllegal8XY8 (x y : Nibble) (s : State) : Host.Outcome State Fault Refusal := raiseIllegal (.illegal8XY8 x y) s

/-- `8XY9`. -/
def execIllegal8XY9 (x y : Nibble) (s : State) : Host.Outcome State Fault Refusal := raiseIllegal (.illegal8XY9 x y) s

/-- `8XYA`. -/
def execIllegal8XYA (x y : Nibble) (s : State) : Host.Outcome State Fault Refusal := raiseIllegal (.illegal8XYA x y) s

/-- `8XYB`. -/
def execIllegal8XYB (x y : Nibble) (s : State) : Host.Outcome State Fault Refusal := raiseIllegal (.illegal8XYB x y) s

/-- `8XYC`. -/
def execIllegal8XYC (x y : Nibble) (s : State) : Host.Outcome State Fault Refusal := raiseIllegal (.illegal8XYC x y) s

/-- `8XYD`. -/
def execIllegal8XYD (x y : Nibble) (s : State) : Host.Outcome State Fault Refusal := raiseIllegal (.illegal8XYD x y) s

/-- `8XYF`. -/
def execIllegal8XYF (x y : Nibble) (s : State) : Host.Outcome State Fault Refusal := raiseIllegal (.illegal8XYF x y) s

/-- `9XYN`, N ≠ 0 (D2). -/
def execIllegal9 (x y n : Nibble) (s : State) : Host.Outcome State Fault Refusal := raiseIllegal (.illegal9 x y n) s

/-- `EXNN` with NN not 9E or A1 (D2). -/
def execIllegalE (x : Nibble) (nn : Byte) (s : State) : Host.Outcome State Fault Refusal :=
  raiseIllegal (.illegalE x nn) s

/-- `FXNN` with NN not listed. -/
def execIllegalF (x : Nibble) (nn : Byte) (s : State) : Host.Outcome State Fault Refusal :=
  raiseIllegal (.illegalF x nn) s

end Sys2Proof.Machine
end

