-- ==== Sys2Proof/Machine/Index.lean ====
section
/-! DEFINITION. The index register and memory transfers (spec/43_index_memory.md). -/

namespace Sys2Proof.Machine

/-- LD I, NNN (R113). -/
def execLdI (nnn : Addr) (s : State) : Host.Outcome State Fault Refusal := complete false (s.setI (addrOperand nnn))

/-- ADD I, VX (R114): mod 2^16, no flag (D7). -/
def execAddI (x : Reg) (s : State) : Host.Outcome State Fault Refusal :=
  complete false (s.setI (s.i + (s.reg x).zeroExtend 16))

/-- LD F, VX (R115): the product itself, no mask on `V[X]`. -/
def execLdF (x : Reg) (s : State) : Host.Outcome State Fault Refusal :=
  complete false (s.setI (BitVec.ofNat 16 (5 * (s.reg x).toNat)))

/-- LD HF, VX (R116, D19). -/
def execLdHf (x : Reg) (s : State) : Host.Outcome State Fault Refusal :=
  complete false (s.setI (BitVec.ofNat 16 (s.outside.params.bigFontBase.toNat + 10 * (s.reg x).toNat)))

/-- LD B, VX (R117). -/
def execLdB (x : Reg) (s : State) : Host.Outcome State Fault Refusal :=
  complete false (s.storeBytes s.i.toNat (decimalDigits (s.reg x)))

/-- LD [I], VX (R118). -/
def execLdMemVx (x : Reg) (s : State) : Host.Outcome State Fault Refusal :=
  complete false ((s.storeBytes s.i.toNat (regsUpTo s x)).setI (indexAfterTransfer s x))

/-- `V[k] <- MemRead(I + k, 1)` for `k = 0..X` (R119). -/
def State.loadRegs (s : State) (x : Reg) : State :=
  { s with v := Vector.ofFn fun k => if k.val ≤ x.toNat then s.memRead (s.i.toNat + k.val) else s.v[k] }

/-- LD VX, [I] (R119). -/
def execLdVxMem (x : Reg) (s : State) : Host.Outcome State Fault Refusal :=
  complete false ((s.loadRegs x).setI (indexAfterTransfer s x))

/-- `RPL[k] <- V[k]` for `k = 0..min(X, 7)` (R120). -/
def State.saveRpl (s : State) (x : Reg) : State :=
  { s with rpl := Vector.ofFn fun k => if k.val ≤ min x.toNat 7 then s.v[k.val] else s.rpl[k] }

/-- LD R, VX (R120). -/
def execLdR (x : Reg) (s : State) : Host.Outcome State Fault Refusal := complete false (s.saveRpl x)

/-- `V[k] <- RPL[k]` for `k = 0..min(X, 7)` (R121). -/
def State.loadRpl (s : State) (x : Reg) : State :=
  { s with v := Vector.ofFn fun k => if h : k.val ≤ min x.toNat 7 then s.rpl[k.val]'(by omega) else s.v[k] }

/-- LD VX, R (R121). -/
def execLdVxR (x : Reg) (s : State) : Host.Outcome State Fault Refusal := complete false (s.loadRpl x)

end Sys2Proof.Machine
end

