-- ==== Sys2Proof/Machine/TimersInput.lean ====
section
/-! DEFINITION. Timers and keypad input (spec/44_timers_input.md). -/

namespace Sys2Proof.Machine

/-- LD VX, DT (R122). -/
def execLdVxDt (x : Reg) (s : State) : Host.Outcome State Fault Refusal := complete false (s.setReg x s.delay)

/-- LD DT, VX (R123). -/
def execLdDt (x : Reg) (s : State) : Host.Outcome State Fault Refusal := complete false { s with delay := s.reg x }

/-- LD ST, VX (R124). -/
def execLdSt (x : Reg) (s : State) : Host.Outcome State Fault Refusal := complete false { s with sound := s.reg x }

/-- LD VX, K (R125): the least key that is down, or a retry. -/
def execLdVxK (x : Reg) (s : State) : Host.Outcome State Fault Refusal :=
  match leastKeyDown s with
  | some k => complete false (s.setReg x (BitVec.ofNat 8 k))
  | none => complete false s.retry

/-- SKP VX (R126). -/
def execSkp (x : Reg) (s : State) : Host.Outcome State Fault Refusal := complete false (s.skipIf (keyDown s x))

/-- SKNP VX (R127). -/
def execSknp (x : Reg) (s : State) : Host.Outcome State Fault Refusal := complete false (s.skipIf (!keyDown s x))

end Sys2Proof.Machine
end

