-- ==== Sys2Proof/Machine/Dispatch.lean ====
section
/-! DEFINITION. Dispatch: one arm per instruction (spec/40_dispatch.md R75), each run on the state `s1` whose `PC` is
already advanced (R73). -/

namespace Sys2Proof.Machine

def exec (i : Instr) (s : State) : Host.Outcome State Fault Refusal :=
  match i with
  | .cls u => Sys2Proof.Machine.execCls u s
  | .ret u => Sys2Proof.Machine.execRet u s
  | .scd u n => Sys2Proof.Machine.execScd u n s
  | .scu u n => Sys2Proof.Machine.execScu u n s
  | .scr u => Sys2Proof.Machine.execScr u s
  | .scl u => Sys2Proof.Machine.execScl u s
  | .low u => Sys2Proof.Machine.execLow u s
  | .high u => Sys2Proof.Machine.execHigh u s
  | .retry0 nnn => Sys2Proof.Machine.execRetry0 nnn s
  | .jp nnn => Sys2Proof.Machine.execJp nnn s
  | .call nnn => Sys2Proof.Machine.execCall nnn s
  | .seImm x nn => Sys2Proof.Machine.execSeImm x nn s
  | .sneImm x nn => Sys2Proof.Machine.execSneImm x nn s
  | .seReg x y => Sys2Proof.Machine.execSeReg x y s
  | .illegal5 x y n => Sys2Proof.Machine.execIllegal5 x y n s
  | .ldImm x nn => Sys2Proof.Machine.execLdImm x nn s
  | .addImm x nn => Sys2Proof.Machine.execAddImm x nn s
  | .ldReg x y => Sys2Proof.Machine.execLdReg x y s
  | .orReg x y => Sys2Proof.Machine.execOr x y s
  | .andReg x y => Sys2Proof.Machine.execAnd x y s
  | .xorReg x y => Sys2Proof.Machine.execXor x y s
  | .addReg x y => Sys2Proof.Machine.execAddReg x y s
  | .sub x y => Sys2Proof.Machine.execSub x y s
  | .shr x y => Sys2Proof.Machine.execShr x y s
  | .subn x y => Sys2Proof.Machine.execSubn x y s
  | .shl x y => Sys2Proof.Machine.execShl x y s
  | .illegal8XY8 x y => Sys2Proof.Machine.execIllegal8XY8 x y s
  | .illegal8XY9 x y => Sys2Proof.Machine.execIllegal8XY9 x y s
  | .illegal8XYA x y => Sys2Proof.Machine.execIllegal8XYA x y s
  | .illegal8XYB x y => Sys2Proof.Machine.execIllegal8XYB x y s
  | .illegal8XYC x y => Sys2Proof.Machine.execIllegal8XYC x y s
  | .illegal8XYD x y => Sys2Proof.Machine.execIllegal8XYD x y s
  | .illegal8XYF x y => Sys2Proof.Machine.execIllegal8XYF x y s
  | .sneReg x y => Sys2Proof.Machine.execSneReg x y s
  | .illegal9 x y n => Sys2Proof.Machine.execIllegal9 x y n s
  | .ldI nnn => Sys2Proof.Machine.execLdI nnn s
  | .jpV0 nnn => Sys2Proof.Machine.execJpV0 nnn s
  | .rnd x nn => Sys2Proof.Machine.execRnd x nn s
  | .drw x y n => Sys2Proof.Machine.execDrw x y n s
  | .skp x => Sys2Proof.Machine.execSkp x s
  | .sknp x => Sys2Proof.Machine.execSknp x s
  | .illegalE x nn => Sys2Proof.Machine.execIllegalE x nn s
  | .ldVxDt x => Sys2Proof.Machine.execLdVxDt x s
  | .ldVxK x => Sys2Proof.Machine.execLdVxK x s
  | .ldDt x => Sys2Proof.Machine.execLdDt x s
  | .ldSt x => Sys2Proof.Machine.execLdSt x s
  | .addI x => Sys2Proof.Machine.execAddI x s
  | .ldF x => Sys2Proof.Machine.execLdF x s
  | .ldHf x => Sys2Proof.Machine.execLdHf x s
  | .ldB x => Sys2Proof.Machine.execLdB x s
  | .ldMemVx x => Sys2Proof.Machine.execLdMemVx x s
  | .ldVxMem x => Sys2Proof.Machine.execLdVxMem x s
  | .ldR x => Sys2Proof.Machine.execLdR x s
  | .ldVxR x => Sys2Proof.Machine.execLdVxR x s
  | .illegalF x nn => Sys2Proof.Machine.execIllegalF x nn s

end Sys2Proof.Machine
end

