-- ==== Sys2Proof/Machine/Step.lean ====
section
/-! DEFINITION. One step of the engine: `cycle()` (spec/40_dispatch.md R71 to R78), and the placing of one instruction
word for the host's questions. -/

namespace Sys2Proof.Machine

/-- `cycle()` (R78): fetch at `PC`, advance `PC` by 2, decode, execute. While `Powered` is false there is no step
(R31, R71, D22). What `cycle()` returns stands on top of `outside.results` in the next state (R38). -/
def step (s : State) : Host.Outcome State Fault Refusal :=
  if s.powered then exec (decode s.outside.params.scrollUpEnabled s.fetch) s.advance
  else .refused .notPowered

/-- The state with the instruction word `w` of the opcode table stored where the next fetch reads (R50): its high byte
at `PC`, its low byte at `PC + 1`. The core must be powered for a fetch (R31), and the row SCU N must exist for its
words (R145), so those two are set where they are needed (log 8). -/
def State.withFetchWord (s : State) (nbits w : Nat) : State :=
  let word := tableWord nbits w
  let present := word.extractLsb' 12 4 = 0x0#4 ∧ word.extractLsb' 4 4 = 0xD#4
  let s := s.storeBytes s.pc.toNat [highByte word, lowByte word]
  { s with
    powered := true
    outside := { s.outside with
      params := { s.outside.params with scrollUpEnabled := decide present || s.outside.params.scrollUpEnabled } } }

end Sys2Proof.Machine
end

