-- ==== Sys2Proof/Machine/HostCalls.lean ====
section
/-! DEFINITION. The boundary transactions through which the host reaches the core (spec/10_state.md R35 to R41;
70_reset_and_hazards.md R168 to R170), each atomic and between cycles. -/

namespace Sys2Proof.Machine

/-- The Machine State after power-on, before the ROM is copied: every field zeroed, the fonts in low memory, the stack
sized by the mode (R168, R169). What stands outside the Machine State is kept. -/
def powerOn (mode : Mode) (o : Outside) : State :=
  { State.reset with mode := mode, wraparound := o.params.wraparound, outside := o }

/-- `power_and_load(rom_bytes, mode)` (R36, R168): a ROM that is too long is rejected before anything changes (R155). -/
def powerAndLoad (rom : List Byte) (mode : Mode) (s : State) : Host.Outcome State Fault Refusal :=
  if rom.length > maxRom then .fault (.romTooLarge rom.length)
  else .next ((powerOn mode s.outside).storeBytes programBase rom)

/-- `set_input(key, pressed)` (R37): one latch; a key outside 0..15 spells no call. -/
def setInput (key : Nat) (pressed : Bool) (s : State) : Host.Outcome State Fault Refusal :=
  if key < 16 then .next { s with input := s.input.setIfInBounds key pressed } else .refused (.noSuchKey key)

/-- One tick of a timer, floored at 0 (R128). -/
def tick (t : Byte) : Byte := if t.toNat > 0 then t - 1#8 else t

/-- `decrement_timers()` (R39, R128). -/
def decrementTimers (s : State) : Host.Outcome State Fault Refusal :=
  .next { s with delay := tick s.delay, sound := tick s.sound }

/-- Snapshot read (R40): the host sees the whole Machine State, and a read changes none. -/
def readSnapshot (s : State) : State := s

/-- Snapshot restore (R41, D33): every element of the Machine State takes the snapshot's value; the parameters, the
random source and the record of results are outside it and stay (R33; log 15).
DESIGN CHOICE (log 20): R41 speaks only of a state read earlier by R40 and leaves open what a host gets that hands over one it
never read. Which states were read is not recorded, so every state with the same parameters is taken as it is, one that breaks
`Inv` too. -/
def restore (snapshot s : State) : Host.Outcome State Fault Refusal :=
  if snapshot.outside.params = s.outside.params then .next { snapshot with outside := s.outside }
  else .refused .foreignSnapshot

/-- The core's interface (R35). -/
inductive Transaction where
  | powerAndLoad (rom : List Byte) (mode : Mode)
  | setInput (key : Nat) (pressed : Bool)
  | cycle
  | decrementTimers
  | readSnapshot
  | restore (snapshot : State)
  deriving DecidableEq, Repr

/-- One transaction. -/
def transact (t : Transaction) (s : State) : Host.Outcome State Fault Refusal :=
  match t with
  | .powerAndLoad rom mode => powerAndLoad rom mode s
  | .setInput key pressed => setInput key pressed s
  | .cycle => step s
  | .decrementTimers => decrementTimers s
  | .readSnapshot => .next (readSnapshot s)
  | .restore snapshot => restore snapshot s

/-- A run is a sequence of transactions, ended when the host stops (R83, R176). A rejected call and a call that is
refused change no state (R155, D22). -/
def hostRun : List Transaction → State → State
  | [], s => s
  | t :: ts, s =>
    match transact t s with
    | .next s' => hostRun ts s'
    | .fault _ => hostRun ts s
    | .refused _ => hostRun ts s

/-- What can be observed at the end of a run (R176): the snapshot at that boundary, and the list of results `cycle()`
returned, the first one first. -/
structure RunEnd where
  snapshot : State
  results : List CycleResult
  deriving DecidableEq, Repr

/-- The host stops after these transactions, a boundary of its own choice (R83, R176): the snapshot there, and what the
cycles of this run returned, which is what the list of results has beyond the state the run started from. -/
def runEnd (run : List Transaction) (s : State) : RunEnd :=
  { snapshot := readSnapshot (hostRun run s)
    results := (hostRun run s).outside.results.reverse.drop s.outside.results.length }

end Sys2Proof.Machine
end

