-- ==== Sys2Proof/Safety.lean ====
section
/-! DEFINITION. The terms the statements are written in: what a run must keep, what a cycle may change, and how a cycle
ended. -/

namespace Sys2Proof.Machine

/-- The faults a cycle can raise (60_exceptions.md R152, codes 1 to 3). -/
def isCycleFault : Fault → Bool
  | .illegalOpcode _ => true
  | .stackOverflow _ => true
  | .stackUnderflow _ => true
  | .romTooLarge _ => false

/-- The spec's numbers of the faults (R152, D24). -/
def faultCode : Fault → Nat
  | .illegalOpcode _ => 1
  | .stackOverflow _ => 2
  | .stackUnderflow _ => 3
  | .romTooLarge _ => 4

/-- A run so far in which no cycle faulted. -/
def State.clean (s : State) : Prop := s.outside.faults = []

/-- What every state of a run satisfies: the memory is in its canonical form (R26, R43); the stack pointer lies in
0..STACK_DEPTH(Mode) (R21) and the slots the mode's stack lacks hold 0; the `wraparound` flag is the construction
parameter (R30); and every fault that a cycle returned is a cycle fault (R152). -/
structure Inv (s : State) : Prop where
  memory : Memory.wf s.outside.params s.mem = true
  stackPointer : s.sp.val ≤ stackDepth s.mode
  noStackBeyond : ∀ k : Fin 16, stackDepth s.mode ≤ k.val → s.stack[k] = 0#16
  wraparound : s.wraparound = s.outside.params.wraparound
  results : ∀ f ∈ s.outside.faults, isCycleFault f = true

/-- Two states with the same Machine State (R18), whatever stands outside it. -/
def SameMachine (s t : State) : Prop := { s with outside := t.outside } = t

/-- What a cycle may change; whatever is not named here is kept (R34). -/
structure Changes where
  /-- the registers that may change -/
  regs : List Reg := []
  /-- the addresses stored to, each below 4096 -/
  cells : List Nat := []
  i : Bool := false
  pc : Bool := false
  stack : Bool := false
  rpl : Bool := false
  timers : Bool := false
  grid : Bool := false
  hiresMode : Bool := false
  draws : Bool := false

/-- `t` differs from `s` at most in what `c` names, in `Draw` and in the record of results. -/
structure Keeps (c : Changes) (s t : State) : Prop where
  regs : ∀ r, r ∉ c.regs → t.reg r = s.reg r
  memory : ∀ a, mask12 a ∉ c.cells → t.memRead a = s.memRead a
  i : c.i = false → t.i = s.i
  pc : c.pc = false → t.pc = s.pc
  stack : c.stack = false → t.stack = s.stack ∧ t.sp = s.sp
  rpl : c.rpl = false → t.rpl = s.rpl
  timers : c.timers = false → t.delay = s.delay ∧ t.sound = s.sound
  grid : c.grid = false → t.grid = s.grid
  hiresMode : c.hiresMode = false → t.hiresMode = s.hiresMode
  draws : c.draws = false → t.outside.draws = s.outside.draws
  fixed : t.input = s.input ∧ t.mode = s.mode ∧ t.wraparound = s.wraparound ∧ t.powered = s.powered
    ∧ t.outside.params = s.outside.params

/-- `t` ends a completed cycle that started from `s`: `cycle()` returns `Completed(d)`, the one new entry of the list
of results, and `Draw` holds the same value (R76). -/
structure Completed (d : Bool) (s t : State) : Prop where
  draw : t.draw = d
  results : t.outside.results = .completed d :: s.outside.results

/-- `t` is the state after a cycle faulted with `f`, `s1` being the state after the provisional advance (R77, R159):
the Machine State is that of `s1`, and the fault is the one new entry of the list of results. -/
structure Faulted (f : Fault) (s1 t : State) : Prop where
  machine : SameMachine s1 t
  results : t.outside.results = .faulted f :: s1.outside.results
  rest : t.outside.params = s1.outside.params ∧ t.outside.draws = s1.outside.draws

/-- The addresses of `n` bytes at `I` (R45). -/
def cellsAtI (s : State) (n : Nat) : List Nat := (List.range n).map fun k => mask12 (s.i.toNat + k)

/-- The illegal words (30_encoding.md R67), as the spec lists them. -/
def isIllegalWord (w : Word) : Bool :=
  let t := w.toNat / 4096
  let n := w.toNat % 16
  let nn := w.toNat % 256
  (t == 0x8 && [0x8, 0x9, 0xA, 0xB, 0xC, 0xD, 0xF].contains n)
    || (t == 0xF && !([0x07, 0x0A, 0x15, 0x18, 0x1E, 0x29, 0x30, 0x33, 0x55, 0x65, 0x75, 0x85].contains nn))
    || ((t == 0x5 || t == 0x9) && n != 0)
    || (t == 0xE && !([0x9E, 0xA1].contains nn))

/-- The retry words (30_encoding.md R66), as the spec lists them. -/
def isRetryWord (scrollUp : Bool) (w : Word) : Bool :=
  let t := w.toNat / 4096
  let nn := w.toNat % 256
  t == 0 && !([0xE0, 0xEE, 0xFB, 0xFC, 0xFE, 0xFF].contains nn) && !(0xC0 ≤ nn && nn ≤ 0xCF)
    && !(scrollUp && 0xD0 ≤ nn && nn ≤ 0xDF)

/-- The instruction is one of the ILLEGAL rows. -/
def isIllegalInstr : Instr → Bool
  | .illegal5 _ _ _ | .illegal8XY8 _ _ | .illegal8XY9 _ _ | .illegal8XYA _ _ | .illegal8XYB _ _
  | .illegal8XYC _ _ | .illegal8XYD _ _ | .illegal8XYF _ _ | .illegal9 _ _ _ | .illegalE _ _
  | .illegalF _ _ => true
  | _ => false

/-- The instructions that set the draw indication (45_display.md R141). -/
def setsDraw : Instr → Bool
  | .cls _ | .scd _ _ | .scu _ _ | .scr _ | .scl _ | .low _ | .high _ | .drw _ _ _ => true
  | _ => false

/-- The registers an instruction may write (10_state.md R34, rows `V[X]` and `VF`). -/
def WritesReg (i : Instr) (s : State) (r : Reg) : Prop :=
  match i with
  | .ldImm x _ | .addImm x _ | .ldReg x _ | .rnd x _ | .ldVxDt x | .ldVxK x => r = x
  | .orReg x _ | .andReg x _ | .xorReg x _ => r = x ∨ (r = vf ∧ logicVfReset s = true)
  | .addReg x _ | .sub x _ | .shr x _ | .subn x _ | .shl x _ => r = x ∨ r = vf
  | .ldVxMem x => r.toNat ≤ x.toNat
  | .ldVxR x => r.toNat ≤ min x.toNat 7
  | .drw _ _ _ => r = vf
  | _ => False

/-- The instructions that write `PC` beside the provisional advance (10_state.md R34, row `PC`). -/
def movesPc : Instr → Bool
  | .ret _ | .jp _ | .call _ | .jpV0 _ | .seImm _ _ | .sneImm _ _ | .seReg _ _ | .sneReg _ _ | .skp _ | .sknp _
  | .ldVxK _ | .retry0 _ => true
  | _ => false

/-- Where `PC` stands after the cycle that runs `i`, fetched at `s.pc` in state `s` (40_dispatch.md R79). -/
def netPc (i : Instr) (s : State) : Word :=
  let p := s.pc
  let skips (c : Bool) : Word := if c then p + 4#16 else p + 2#16
  match i with
  | .seImm x nn => skips (s.reg x == nn)
  | .sneImm x nn => skips (s.reg x != nn)
  | .seReg x y => skips (s.reg x == s.reg y)
  | .sneReg x y => skips (s.reg x != s.reg y)
  | .skp x => skips (keyDown s x)
  | .sknp x => skips (!keyDown s x)
  | .jp nnn => BitVec.ofNat 16 nnn.toNat
  | .call nnn => if s.sp.val < stackDepth s.mode then BitVec.ofNat 16 nnn.toNat else p + 2#16
  | .ret _ => if s.sp.val = 0 then p + 2#16 else s.topOfStack
  | .jpV0 nnn => BitVec.ofNat 16 (nnn.toNat + (jumpOffsetOperand s nnn).toNat)
  | .ldVxK _ => if s.input.toList.any (fun down => down) then p + 2#16 else p
  | .retry0 _ => p
  | _ => p + 2#16

/-- How many physical columns and rows a logical pixel has (45_display.md R131). -/
def pixelScale (w : View) : Nat := if w.hires then 1 else 2

/-- The sprite pixel at logical `(x, y)` covers the physical pixel `(px, py)`: after the wrap, where there is one, the
physical pixel lies in the block of that logical pixel (R131, R137). -/
def Covers (w : View) (x y px py : Nat) : Prop :=
  px / pixelScale w = (if w.wrap then x % viewWidth w else x)
    ∧ py / pixelScale w = (if w.wrap then y % viewHeight w else y)

/-- The sprite pixel at logical `(x, y)` lies outside the active resolution and does not wrap (R137, R138). -/
def OffGrid (w : View) (x y : Nat) : Prop := w.wrap = false ∧ (viewWidth w ≤ x ∨ viewHeight w ≤ y)

/-- Row `r`, column `c` of the 8-wide sprite of height `n` at `I` is a set bit (R133, R150). -/
def SpriteBit8 (s : State) (n r c : Nat) : Prop := r < n ∧ c < 8 ∧ (s.memRead (s.i.toNat + r)).getLsbD (7 - c) = true

/-- Row `r`, column `c` of the big sprite at `I` is a set bit (R52, R133, R150): the byte at the lower address is the
left half. -/
def SpriteBit16 (s : State) (r c : Nat) : Prop :=
  r < 16 ∧ c < 16 ∧
    (if c < 8 then (s.memRead (s.i.toNat + 2 * r)).getLsbD (7 - c)
      else (s.memRead (s.i.toNat + 2 * r + 1)).getLsbD (15 - c)) = true

/-- A set bit of the sprite `bit`, drawn with its origin at `(V[x], V[y])`, covers the physical pixel `(px, py)`. -/
def Touches (s : State) (bit : Nat → Nat → Prop) (x y : Reg) (px py : Nat) : Prop :=
  ∃ r c, bit r c ∧
    Covers s.view ((spriteOrigin s.view (s.reg x).toNat (s.reg y).toNat).1 + c)
      ((spriteOrigin s.view (s.reg x).toNat (s.reg y).toNat).2 + r) px py

/-- Row `r` of the big sprite collides or is clipped (R138, D14): one of its set bits covers a physical pixel that was
1, or lies off-grid without wrapping. -/
def RowHits (s : State) (x y : Reg) (r : Nat) : Prop :=
  ∃ c, SpriteBit16 s r c ∧
    ((∃ px py, px < 128 ∧ py < 64 ∧ pixel s.grid px py = true ∧
        Covers s.view ((spriteOrigin s.view (s.reg x).toNat (s.reg y).toNat).1 + c)
          ((spriteOrigin s.view (s.reg x).toNat (s.reg y).toNat).2 + r) px py)
      ∨ OffGrid s.view ((spriteOrigin s.view (s.reg x).toNat (s.reg y).toNat).1 + c)
          ((spriteOrigin s.view (s.reg x).toNat (s.reg y).toNat).2 + r))

end Sys2Proof.Machine
end

