-- ==== Sys2Proof/Certificates/Slice0/Obligations.lean ====
section
/-! DEFINITION. The statements for the provers. A docstring names the rule of spec/ a statement formalises; where a part
rests on a choice that the spec marks as its own (a decision D<n>, general knowledge), it says so. Statements about `exec`
speak of the state `s` after the provisional advance of `PC` (40_dispatch.md R73); statements about `step` of the state
before the cycle. -/

open Sys2Proof Sys2Proof.Machine

/-! ### Encoding -/

/-- Decoding the word of any well-formed instruction gives it back, with every operand at every value
(30_encoding.md R63, R65; the rows of general knowledge included). -/
def Obligations.DecodeOfEncodeIsTheInstruction : Prop :=
  ∀ (scrollUpEnabled : Bool) (i : Instr), i.wf scrollUpEnabled = true → decode scrollUpEnabled (encode i) = i

/-- Every word is the word of exactly one well-formed instruction: decoding is total and loses no bit
(30_encoding.md R60, R65). -/
def Obligations.EveryWordIsOneWellFormedInstruction : Prop :=
  ∀ (scrollUpEnabled : Bool) (w : Word),
    (decode scrollUpEnabled w).wf scrollUpEnabled = true ∧ encode (decode scrollUpEnabled w) = w
      ∧ ∀ i : Instr, i.wf scrollUpEnabled = true → encode i = w → i = decode scrollUpEnabled w

/-- The illegal words are exactly those of 30_encoding.md R67 (decision D2 for the groups 0x5, 0x9, 0xE). -/
def Obligations.IllegalWordsAreThoseTheSpecLists : Prop :=
  ∀ (scrollUpEnabled : Bool) (w : Word), isIllegalInstr (decode scrollUpEnabled w) = isIllegalWord w

/-- The retry words are exactly those of 30_encoding.md R66 (decisions D3, D4, D5). -/
def Obligations.RetryWordsAreThoseTheSpecLists : Prop :=
  ∀ (scrollUpEnabled : Bool) (w : Word),
    (∃ nnn, decode scrollUpEnabled w = .retry0 nnn) ↔ isRetryWord scrollUpEnabled w = true

/-- A sanity check of the decoder on words written out from 30_encoding.md R65 and 95_test_vectors.md part 2,
at least one of each of the 16 groups. -/
def Obligations.SampleWordsDecodeAsTheSpecSpellsThem : Prop :=
  decode false 0x01E0#16 = .cls 1#4 ∧ decode false 0x00FD#16 = .retry0 0x0FD#12
    ∧ decode false 0x00D4#16 = .retry0 0x0D4#12 ∧ decode true 0x00D4#16 = .scu 0#4 4#4
    ∧ decode false 0x2300#16 = .call 0x300#12 ∧ decode false 0x8126#16 = .shr 1#4 2#4
    ∧ decode false 0x1246#16 = .jp 0x246#12 ∧ decode false 0x3310#16 = .seImm 3#4 0x10#8
    ∧ decode false 0x4310#16 = .sneImm 3#4 0x10#8 ∧ decode false 0x6A05#16 = .ldImm 0xA#4 0x05#8
    ∧ decode false 0x7003#16 = .addImm 0#4 0x03#8 ∧ decode false 0x9120#16 = .sneReg 1#4 2#4
    ∧ decode false 0xA210#16 = .ldI 0x210#12 ∧ decode false 0xB230#16 = .jpV0 0x230#12
    ∧ decode false 0xC00F#16 = .rnd 0#4 0x0F#8 ∧ decode false 0x5121#16 = .illegal5 1#4 2#4 1#4 ∧ decode false 0xD125#16 = .drw 1#4 2#4 5#4
    ∧ decode false 0xE1A2#16 = .illegalE 1#4 0xA2#8 ∧ decode false 0xF265#16 = .ldVxMem 2#4

/-! ### The cycle -/

/-- A cycle fetches the big-endian word at `PC`, advances `PC` by 2, decodes and executes
(40_dispatch.md R72, R73). -/
def Obligations.CycleFetchesAdvancesDecodesAndExecutes : Prop :=
  ∀ (s : State) (w : Word), s.powered = true →
    w.toNat = (s.memRead s.pc.toNat).toNat * 256 + (s.memRead (s.pc.toNat + 1)).toNat →
    step s = exec (decode s.outside.params.scrollUpEnabled w) { s with pc := BitVec.ofNat 16 (s.pc.toNat + 2) }

/-- When the bytes at `PC` are the word of a well-formed instruction, the step is that instruction's execution on the
state whose `PC` is advanced by 2 (40_dispatch.md R78). -/
def Obligations.StepRunsTheDecodedInstruction : Prop :=
  ∀ (s : State) (i : Instr), s.powered = true → i.wf s.outside.params.scrollUpEnabled = true →
    (encode i).toNat = (s.memRead s.pc.toNat).toNat * 256 + (s.memRead (s.pc.toNat + 1)).toNat →
    step s = exec i { s with pc := BitVec.ofNat 16 (s.pc.toNat + 2) }

/-- A powered core always completes its cycle or reports a fault the host can go on from: in this model every step of a
powered core answers a next state, whose list of results has its one new entry on top (40_dispatch.md R71, R84; log 5). While `Powered` is false there is no step
(10_state.md R31; decision D22). -/
def Obligations.CoreStepsExactlyWhenPowered : Prop :=
  ∀ s : State,
    (s.powered = true → ∃ t, step s = .next t ∧
      (t.outside.results = .completed t.draw :: s.outside.results
        ∨ ∃ f, t.outside.results = .faulted f :: s.outside.results))
    ∧ (s.powered = false → step s = .refused .notPowered)

/-- The host's word placed at `PC` is what the next step runs (log 8). -/
def Obligations.PlacedWordIsRunByTheNextStep : Prop :=
  ∀ (s : State) (w : Nat), w < 65536 → ∃ i, decodeTableWord 16 w = some i ∧
    step (s.withFetchWord 16 w)
      = exec i { s.withFetchWord 16 w with pc := BitVec.ofNat 16 (s.pc.toNat + 2) }

/-- A faulted cycle leaves the state before it with only `PC` advanced by 2, and surfaces the fault
(60_exceptions.md R159). -/
def Obligations.FaultedCycleKeepsOnlyThePcAdvance : Prop :=
  ∀ (s t : State) (f : Fault), step s = .next t → t.outside.result = some (.faulted f) →
    Faulted f { s with pc := BitVec.ofNat 16 (s.pc.toNat + 2) } t

/-- A cycle faults exactly on an illegal word, on a CALL that finds the stack full and on a RET that finds it empty,
each with its own fault and the whole word (60_exceptions.md R152, R158; decisions D2, D8). "Full" is tested as
STACK_DEPTH(Mode) ≤ SP, the model's choice (log 11): the spec's SP = STACK_DEPTH(Mode) in every state that meets the invariant `Inv`. -/
def Obligations.CycleFaultsExactlyWhereTheSpecSaysSo : Prop :=
  ∀ (s t : State) (f : Fault), step s = .next t →
    (t.outside.result = some (.faulted f) ↔
      (isIllegalWord s.fetch = true ∧ f = .illegalOpcode s.fetch)
        ∨ (s.fetch.toNat / 4096 = 2 ∧ stackDepth s.mode ≤ s.sp.val ∧ f = .stackOverflow s.fetch)
        ∨ (s.fetch.toNat / 4096 = 0 ∧ s.fetch.toNat % 256 = 0xEE ∧ s.sp.val = 0 ∧ f = .stackUnderflow s.fetch))

/-- The net effect of a cycle on `PC`, for every instruction (40_dispatch.md R79; a CALL with SP at or above the depth
counts as full, log 11). -/
def Obligations.CycleMovesPcAsTheTableSays : Prop :=
  ∀ s t : State, step s = .next t →
    t.pc = netPc (decode s.outside.params.scrollUpEnabled s.fetch) s

/-- The spec's testable property of `PC` (40_dispatch.md R80): a valid word in 0x1000-0xBFFF or 0xD000-0xFFFF advances
`PC` by 2 or 4, except that a jump or a call that finds room sets its computed target, and FX0A leaves `PC` unchanged until
a key is latched. -/
def Obligations.PcAdvancesByTwoOrFourOutsideTransfers : Prop :=
  ∀ s t : State, step s = .next t → isIllegalWord s.fetch = false →
    (0x1000 ≤ s.fetch.toNat ∧ s.fetch.toNat ≤ 0xBFFF) ∨ 0xD000 ≤ s.fetch.toNat →
    if s.fetch.toNat / 4096 = 1 then t.pc.toNat = s.fetch.toNat % 4096
    else if s.fetch.toNat / 4096 = 2 then (s.sp.val < stackDepth s.mode → t.pc.toNat = s.fetch.toNat % 4096)
    else if s.fetch.toNat / 4096 = 0xB then
      t.pc.toNat = s.fetch.toNat % 4096 + (if s.mode = .schip then s.reg (BitVec.ofNat 4 (s.fetch.toNat / 256))
        else s.reg 0#4).toNat
    else if s.fetch.toNat / 4096 = 0xF ∧ s.fetch.toNat % 256 = 0x0A then
      ((∀ k : Fin 16, s.input[k] = false) → t.pc = s.pc)
        ∧ ((∃ k : Fin 16, s.input[k] = true) → t.pc.toNat = (s.pc.toNat + 2) % 65536)
    else t.pc.toNat = (s.pc.toNat + 2) % 65536 ∨ t.pc.toNat = (s.pc.toNat + 4) % 65536

/-- A retry, of a RETRY0 word or of FX0A with no key down, is a complete cycle that leaves `PC` where it was fetched
from and changes no other state except `Draw`, which becomes false (40_dispatch.md R82). -/
def Obligations.RetryChangesNothingButDraw : Prop :=
  ∀ s : State, s.powered = true →
    isRetryWord s.outside.params.scrollUpEnabled s.fetch = true
      ∨ (s.fetch.toNat / 4096 = 0xF ∧ s.fetch.toNat % 256 = 0x0A ∧ ∀ k : Fin 16, s.input[k] = false) →
    ∃ t, step s = .next t ∧ SameMachine { s with draw := false } t
      ∧ t.outside.result = some (.completed false)

/-- The draw indication of a completed cycle is true exactly for the display instructions (45_display.md R141;
decision D10), and a faulting cycle leaves `Draw` as it was. -/
def Obligations.DrawIsSetExactlyByDisplayInstructions : Prop :=
  ∀ s t : State, step s = .next t →
    ((∃ f, t.outside.result = some (.faulted f)) → t.draw = s.draw)
      ∧ ((∀ f, t.outside.result ≠ some (.faulted f)) →
          t.draw = setsDraw (decode s.outside.params.scrollUpEnabled s.fetch))

/-- No cycle writes the input latch, the mode, `Powered`, the wraparound flag or a construction parameter
(10_state.md R25, R27, R30, R31). -/
def Obligations.CycleNeverWritesWhatTheHostOwns : Prop :=
  ∀ s t : State, step s = .next t →
    t.input = s.input ∧ t.mode = s.mode ∧ t.powered = s.powered ∧ t.wraparound = s.wraparound
      ∧ t.outside.params = s.outside.params

/-- The access matrix (10_state.md R34), row by row: what a cycle changes, only the instructions named for it change. A
register changes only as the X of an instruction that writes it, or as `VF` of one that flags; `PC` beyond the provisional
advance only by a transfer, a skip or a retry; `Draw` only in a completed cycle; the input latch never. SCU is named
beside the rows' 00DN. -/
def Obligations.OnlyTheNamedInstructionsWriteEachElement : Prop :=
  ∀ (s t : State) (i : Instr), step s = .next t → decode s.outside.params.scrollUpEnabled s.fetch = i →
    (∀ r, t.reg r ≠ s.reg r → WritesReg i s r)
      ∧ ((∃ a, t.memRead a ≠ s.memRead a) → (∃ x, i = .ldB x) ∨ ∃ x, i = .ldMemVx x)
      ∧ (t.i ≠ s.i → (∃ nnn, i = .ldI nnn) ∨ (∃ x, i = .addI x) ∨ (∃ x, i = .ldF x) ∨ (∃ x, i = .ldHf x)
          ∨ ((∃ x, i = .ldMemVx x ∨ i = .ldVxMem x) ∧ s.mode ≠ .schip))
      ∧ (t.pc ≠ s.pc + 2#16 → movesPc i = true)
      ∧ (t.stack ≠ s.stack → ∃ nnn, i = .call nnn)
      ∧ (t.sp ≠ s.sp → (∃ nnn, i = .call nnn) ∨ ∃ u, i = .ret u)
      ∧ (t.rpl ≠ s.rpl → ∃ x, i = .ldR x)
      ∧ (t.delay ≠ s.delay → ∃ x, i = .ldDt x)
      ∧ (t.sound ≠ s.sound → ∃ x, i = .ldSt x)
      ∧ t.input = s.input
      ∧ (t.hiresMode ≠ s.hiresMode → (∃ u, i = .low u) ∨ ∃ u, i = .high u)
      ∧ (t.grid ≠ s.grid → (∃ u, i = .cls u) ∨ (∃ u n, i = .scd u n) ∨ (∃ u n, i = .scu u n) ∨ (∃ u, i = .scr u)
          ∨ (∃ u, i = .scl u) ∨ ∃ x y n, i = .drw x y n)
      ∧ (t.draw ≠ s.draw → ∃ d, t.outside.result = some (.completed d))

/-- Determinism (10_state.md R42): two states with the same Machine State, in cores built alike whose random draws are
identical from here on, stay the same under the same host transactions. -/
def Obligations.SameMachineSameDrawsSameRun : Prop :=
  ∀ (run : List Transaction) (s u : State), SameMachine s u → s.outside.params = u.outside.params →
    (∀ k, Config.freeDraw (s.outside.draws + k) = Config.freeDraw (u.outside.draws + k)) →
    SameMachine (hostRun run s) (hostRun run u)

/-- Restore and the round trip (10_state.md R41, R42): restoring a captured state on this core brings back every element
of the Machine State, mode and stack capacity included, and the same transactions run again with identical draws reproduce
the same Machine State; and a cycle is a function of the Machine State and, for CXNN only, of one draw. That restore is a
transaction is decision D33; that it takes snapshots of a core with the same parameters only, and that the draw counter and
the record of results stay, is the model's choice (log 15). -/
def Obligations.RestoredSnapshotReplaysTheRun : Prop :=
  (∀ (run : List Transaction) (s u : State), u.outside.params = s.outside.params →
    ∃ v, restore (readSnapshot s) u = .next v ∧ SameMachine s v ∧ v.mode = s.mode
      ∧ stackDepth v.mode = stackDepth s.mode ∧ v.outside = u.outside
      ∧ ((∀ k, Config.freeDraw (s.outside.draws + k) = Config.freeDraw (u.outside.draws + k)) →
          SameMachine (hostRun run s) (hostRun run v)))
  ∧ ∀ s u t v : State, SameMachine s u → s.outside.params = u.outside.params → step s = .next t → step u = .next v →
      ((∃ x nn, decode s.outside.params.scrollUpEnabled s.fetch = .rnd x nn) →
        Config.freeDraw s.outside.draws = Config.freeDraw u.outside.draws) →
      SameMachine t v ∧ t.outside.result = v.outside.result

/-! ### Invariants -/

/-- The invariant holds of the state after reset. -/
def Obligations.ResetStateMeetsTheInvariant : Prop := Inv State.reset

/-- Every step keeps the invariant: canonical memory, `SP` within the mode's capacity, the wraparound flag, and only
cycle faults returned (10_state.md R21, R26, R30; 60_exceptions.md R152). -/
def Obligations.EveryStepKeepsTheInvariant : Prop := ∀ s t : State, Inv s → step s = .next t → Inv t

/-- Every host transaction keeps the invariant too, a restore when the snapshot meets it (10_state.md R36 to R41). -/
def Obligations.EveryTransactionKeepsTheInvariant : Prop :=
  ∀ (tr : Transaction) (s t : State), Inv s → (∀ snapshot, tr = .restore snapshot → Inv snapshot) →
    transact tr s = .next t → Inv t

/-! ### Control transfer -/

/-- RETRY0 completes, puts `PC` back by 2 and changes nothing else (41_control.md R86; decision D4). -/
def Obligations.Retry0RewindsPc : Prop :=
  ∀ (s : State) (nnn : Addr), ∃ t, exec (.retry0 nnn) s = .next t ∧ Completed false s t
    ∧ Keeps { pc := true } s t ∧ t.pc.toNat = (s.pc.toNat + 65534) % 65536

/-- RET on a non-empty stack takes the top entry into `PC` and does not clear it (41_control.md R87). -/
def Obligations.RetPopsTheReturnAddress : Prop :=
  ∀ (s : State) (u : Nibble) (k : Fin 16), s.sp.val = k.val + 1 → ∃ t, exec (.ret u) s = .next t ∧ Completed false s t
    ∧ Keeps { pc := true, stack := true } s t ∧ t.pc = s.stack[k] ∧ t.sp.val = k.val ∧ t.stack = s.stack

/-- RET on an empty stack raises `StackUnderflow`, and CALL on a full one, 12 entries in CosmacVIP and 16 in the other
modes, raises `StackOverflow`, each with its word (41_control.md R87, R89, 60_exceptions.md R154; decision D8). -/
def Obligations.EmptyAndFullStackFault : Prop :=
  ∀ (s : State) (u : Nibble) (nnn : Addr),
    (s.sp.val = 0 →
      ∃ t, exec (.ret u) s = .next t ∧ Faulted (.stackUnderflow (BitVec.ofNat 16 (u.toNat * 256 + 0xEE))) s t)
    ∧ (s.sp.val = (if s.mode = .cosmacVIP then 12 else 16) →
      ∃ t, exec (.call nnn) s = .next t ∧ Faulted (.stackOverflow (BitVec.ofNat 16 (0x2000 + nnn.toNat))) s t)

/-- CALL with room on the stack pushes the provisional `PC` and jumps (41_control.md R89). -/
def Obligations.CallPushesTheReturnAddress : Prop :=
  ∀ (s : State) (nnn : Addr), s.sp.val < stackDepth s.mode → ∃ t, exec (.call nnn) s = .next t ∧ Completed false s t
    ∧ Keeps { pc := true, stack := true } s t ∧ t.pc.toNat = nnn.toNat ∧ t.sp.val = s.sp.val + 1
    ∧ ∀ k : Fin 16, t.stack[k] = if k.val = s.sp.val then s.pc else s.stack[k]

/-- CALL followed at once by RET resumes after the CALL with the stack pointer back where it was (41_control.md R89, the
document's Scenario D; the capacity rule is decision D8's). -/
def Obligations.CallThenRetResumesAfterTheCall : Prop :=
  ∀ (s : State) (nnn : Addr) (u : Nibble), s.sp.val < stackDepth s.mode →
    ∃ t r, exec (.call nnn) s = .next t ∧ exec (.ret u) { t with pc := BitVec.ofNat 16 (t.pc.toNat + 2) } = .next r
      ∧ r.pc = s.pc ∧ r.sp = s.sp ∧ r.outside.result = some (.completed false)

/-- JP takes its 12-bit target, odd or even (41_control.md R88). -/
def Obligations.JpTakesItsTarget : Prop :=
  ∀ (s : State) (nnn : Addr), ∃ t, exec (.jp nnn) s = .next t ∧ Completed false s t
    ∧ Keeps { pc := true } s t ∧ t.pc.toNat = nnn.toNat

/-- SE and SNE with an immediate and with a register skip two more bytes exactly when the comparison says so
(41_control.md R90 to R93). -/
def Obligations.CompareSkipsAdvanceTwoMoreBytes : Prop :=
  ∀ (s : State) (x y : Reg) (nn : Byte),
    (∃ t, exec (.seImm x nn) s = .next t ∧ Completed false s t ∧ Keeps { pc := true } s t
      ∧ t.pc.toNat = (s.pc.toNat + if (s.reg x).toNat = nn.toNat then 2 else 0) % 65536)
    ∧ (∃ t, exec (.sneImm x nn) s = .next t ∧ Completed false s t ∧ Keeps { pc := true } s t
      ∧ t.pc.toNat = (s.pc.toNat + if (s.reg x).toNat = nn.toNat then 0 else 2) % 65536)
    ∧ (∃ t, exec (.seReg x y) s = .next t ∧ Completed false s t ∧ Keeps { pc := true } s t
      ∧ t.pc.toNat = (s.pc.toNat + if (s.reg x).toNat = (s.reg y).toNat then 2 else 0) % 65536)
    ∧ (∃ t, exec (.sneReg x y) s = .next t ∧ Completed false s t ∧ Keeps { pc := true } s t
      ∧ t.pc.toNat = (s.pc.toNat + if (s.reg x).toNat = (s.reg y).toNat then 0 else 2) % 65536)

/-- BNNN adds `V[X]` in Schip mode, X the top nibble of the address operand, and `V[0]` in the other modes; the sum is kept
in `PC` as it is (41_control.md R94). -/
def Obligations.JpV0AddsTheOffsetRegister : Prop :=
  ∀ (s : State) (nnn : Addr), (encode (.jpV0 nnn)).toNat = 0xB000 + nnn.toNat ∧
    ∃ t, exec (.jpV0 nnn) s = .next t ∧ Completed false s t ∧ Keeps { pc := true } s t
    ∧ t.pc.toNat = nnn.toNat
        + (if s.mode = .schip then s.reg (BitVec.ofNat 4 (nnn.toNat / 256)) else s.reg 0#4).toNat

/-! ### Register loads, arithmetic and logic -/

/-- LD VX, NN writes the immediate and no flag (42_alu.md R97). -/
def Obligations.LdImmLoadsTheImmediate : Prop :=
  ∀ (s : State) (x : Reg) (nn : Byte), (encode (.ldImm x nn)).toNat = 0x6000 + 0x100 * x.toNat + nn.toNat ∧
    ∃ t, exec (.ldImm x nn) s = .next t ∧ Completed false s t
    ∧ Keeps { regs := [x] } s t ∧ t.reg x = nn

/-- ADD VX, NN wraps modulo 256 and LD VX, VY copies, and neither writes a flag (42_alu.md R98, R100; that 7XNN leaves
`VF` and what 8XY0 does are general knowledge of the spec's). -/
def Obligations.AddImmAndCopyWriteOnlyVX : Prop :=
  ∀ (s : State) (x y : Reg) (nn : Byte),
    (∃ t, exec (.addImm x nn) s = .next t ∧ Completed false s t
      ∧ Keeps { regs := [x] } s t ∧ (t.reg x).toNat = ((s.reg x).toNat + nn.toNat) % 256)
    ∧ (∃ t, exec (.ldReg x y) s = .next t ∧ Completed false s t
      ∧ Keeps { regs := [x] } s t ∧ t.reg x = s.reg y)

/-- OR, AND and XOR work bit by bit; `VF` is cleared last where `LOGIC_VF_RESET` of the mode says so, for either value of
that parameter, whose default is true in CosmacVIP alone (42_alu.md R101 to R103, 90_conflicts.md C1). -/
def Obligations.LogicWorksBitwiseAndResetsTheFlagByPolicy : Prop :=
  ∀ (s : State) (x y : Reg) (i : Instr) (n : Nat) (op : Bool → Bool → Bool),
    (i = .orReg x y ∧ n = 1 ∧ op = or) ∨ (i = .andReg x y ∧ n = 2 ∧ op = and) ∨ (i = .xorReg x y ∧ n = 3 ∧ op = xor) →
    (encode i).toNat = 0x8000 + 0x100 * x.toNat + 0x10 * y.toNat + n
    ∧ (s.outside.params.logicVfReset = defaultParams.logicVfReset → (logicVfReset s = true ↔ s.mode = .cosmacVIP))
    ∧ ∃ t, exec i s = .next t ∧ Completed false s t ∧ Keeps { regs := [x, vf] } s t
      ∧ (∀ k, k < 8 → ¬ (x = vf ∧ logicVfReset s = true) →
          (t.reg x).getLsbD k = op ((s.reg x).getLsbD k) ((s.reg y).getLsbD k))
      ∧ (logicVfReset s = true → t.reg vf = 0#8)
      ∧ (logicVfReset s = false → x ≠ vf → t.reg vf = s.reg vf)

/-- ADD, SUB and SUBN write the wrapped result, keep every other register, and write the carry or not-borrow to `VF` last
(42_alu.md R104 to R106; the write order with X = F is decision D9). -/
def Obligations.AddAndSubtractWrapAndWriteTheFlagLast : Prop :=
  ∀ (s : State) (x y : Reg),
    (∃ t, exec (.addReg x y) s = .next t ∧ Completed false s t ∧ Keeps { regs := [x, vf] } s t
      ∧ (x ≠ vf → (t.reg x).toNat = ((s.reg x).toNat + (s.reg y).toNat) % 256)
      ∧ (t.reg vf).toNat = if (s.reg x).toNat + (s.reg y).toNat > 255 then 1 else 0)
    ∧ (∃ t, exec (.sub x y) s = .next t ∧ Completed false s t ∧ Keeps { regs := [x, vf] } s t
      ∧ (x ≠ vf → (t.reg x).toNat = ((s.reg x).toNat + 256 - (s.reg y).toNat) % 256)
      ∧ (t.reg vf).toNat = if (s.reg x).toNat ≥ (s.reg y).toNat then 1 else 0)
    ∧ (∃ t, exec (.subn x y) s = .next t ∧ Completed false s t ∧ Keeps { regs := [x, vf] } s t
      ∧ (x ≠ vf → (t.reg x).toNat = ((s.reg y).toNat + 256 - (s.reg x).toNat) % 256)
      ∧ (t.reg vf).toNat = if (s.reg y).toNat ≥ (s.reg x).toNat then 1 else 0)

/-- The document's carry and borrow invariants, for every pair of operands and every mode (42_alu.md R110). -/
def Obligations.CarryAndBorrowInvariantsHold : Prop :=
  ∀ (s : State) (x y : Reg) (a b : Nat), (s.reg x).toNat = a → (s.reg y).toNat = b →
    (∃ t, exec (.addReg x y) s = .next t ∧ (t.reg vf = 1#8 ↔ a + b > 255))
      ∧ (∃ t, exec (.sub x y) s = .next t ∧ (t.reg vf = 1#8 ↔ a ≥ b))
      ∧ (∃ t, exec (.subn x y) s = .next t ∧ (t.reg vf = 1#8 ↔ b ≥ a))

/-- SHR and SHL shift by one, from `V[X]` in Schip mode and from `V[Y]` in the others; `VF` receives the bit shifted out,
last (42_alu.md R107, R108; the write order with X = F is decision D9). -/
def Obligations.ShiftsTakeTheirSourceByModeAndFlagTheLostBit : Prop :=
  ∀ (s : State) (x y : Reg) (src : Byte), src = (if s.mode = .schip then s.reg x else s.reg y) →
    (∃ t, exec (.shr x y) s = .next t ∧ Completed false s t ∧ Keeps { regs := [x, vf] } s t
      ∧ (x ≠ vf → (t.reg x).toNat = src.toNat / 2) ∧ (t.reg vf).toNat = src.toNat % 2)
    ∧ (∃ t, exec (.shl x y) s = .next t ∧ Completed false s t ∧ Keeps { regs := [x, vf] } s t
      ∧ (x ≠ vf → (t.reg x).toNat = src.toNat * 2 % 256) ∧ (t.reg vf).toNat = src.toNat / 128)

/-- RND takes exactly one draw, a free value, and masks it bit by bit with the immediate (42_alu.md R111, R112; the draw
counter is the model's own, log 4). -/
def Obligations.RndMasksOneFreeDraw : Prop :=
  ∀ (s : State) (x : Reg) (nn : Byte), ∃ t, exec (.rnd x nn) s = .next t ∧ Completed false s t
    ∧ Keeps { regs := [x], draws := true } s t ∧ t.outside.draws = s.outside.draws + 1
    ∧ ∀ k, k < 8 → (t.reg x).getLsbD k = ((Config.freeDraw s.outside.draws).getLsbD k && nn.getLsbD k)

/-! ### Index register and memory transfers -/

/-- FX29 sets `I` to five times `V[X]`, with no mask (43_index_memory.md R115). -/
def Obligations.LdFMultipliesByFive : Prop :=
  ∀ (s : State) (x : Reg), (encode (.ldF x)).toNat = 0xF000 + 0x100 * x.toNat + 0x29 ∧
    ∃ t, exec (.ldF x) s = .next t ∧ Completed false s t ∧ Keeps { i := true } s t
    ∧ t.i.toNat = 5 * (s.reg x).toNat

/-- ANNN, FX1E and FX30 set `I` and nothing else; FX1E and FX30 wrap at 16 bits (43_index_memory.md R113, R114, R116;
general knowledge and decisions D7, D19 of the spec's). -/
def Obligations.IndexInstructionsSetOnlyI : Prop :=
  ∀ (s : State) (x : Reg) (nnn : Addr),
    (∃ t, exec (.ldI nnn) s = .next t ∧ Completed false s t ∧ Keeps { i := true } s t ∧ t.i.toNat = nnn.toNat)
    ∧ (∃ t, exec (.addI x) s = .next t ∧ Completed false s t ∧ Keeps { i := true } s t
      ∧ t.i.toNat = (s.i.toNat + (s.reg x).toNat) % 65536)
    ∧ (∃ t, exec (.ldHf x) s = .next t ∧ Completed false s t ∧ Keeps { i := true } s t
      ∧ t.i.toNat = (s.outside.params.bigFontBase.toNat + 10 * (s.reg x).toNat) % 65536)

/-- FX33 stores the hundreds, tens and ones of `V[X]` at `I`, `I+1`, `I+2` and no other byte (43_index_memory.md R117). -/
def Obligations.LdBStoresTheDecimalDigits : Prop :=
  ∀ (s : State) (x : Reg), (encode (.ldB x)).toNat = 0xF000 + 0x100 * x.toNat + 0x33 ∧
    ∃ t, exec (.ldB x) s = .next t ∧ Completed false s t
    ∧ Keeps { cells := cellsAtI s 3 } s t
    ∧ (t.memRead s.i.toNat).toNat = (s.reg x).toNat / 100
    ∧ (t.memRead (s.i.toNat + 1)).toNat = (s.reg x).toNat / 10 % 10
    ∧ (t.memRead (s.i.toNat + 2)).toNat = (s.reg x).toNat % 10

/-- FX55 stores `V[0]..V[X]` at `I` on and no other byte; `I` is advanced by X+1 except in Schip mode
(43_index_memory.md R118). -/
def Obligations.StoreRegistersWritesV0ToVX : Prop :=
  ∀ (s : State) (x : Reg), (encode (.ldMemVx x)).toNat = 0xF000 + 0x100 * x.toNat + 0x55 ∧
    ∃ t, exec (.ldMemVx x) s = .next t ∧ Completed false s t
    ∧ Keeps { cells := cellsAtI s (x.toNat + 1), i := true } s t
    ∧ (∀ k : Reg, k.toNat ≤ x.toNat → t.memRead (s.i.toNat + k.toNat) = s.reg k)
    ∧ t.i.toNat = if s.mode = .schip then s.i.toNat else (s.i.toNat + x.toNat + 1) % 65536

/-- FX65 loads `V[0]..V[X]` from `I` on and no other register; `I` is advanced by X+1 except in Schip mode
(43_index_memory.md R119). -/
def Obligations.LoadRegistersReadsV0ToVX : Prop :=
  ∀ (s : State) (x : Reg), (encode (.ldVxMem x)).toNat = 0xF000 + 0x100 * x.toNat + 0x65 ∧
    ∃ t, exec (.ldVxMem x) s = .next t ∧ Completed false s t
    ∧ Keeps { regs := (List.range (x.toNat + 1)).map (BitVec.ofNat 4), i := true } s t
    ∧ (∀ k : Reg, k.toNat ≤ x.toNat → t.reg k = s.memRead (s.i.toNat + k.toNat))
    ∧ t.i.toNat = if s.mode = .schip then s.i.toNat else (s.i.toNat + x.toNat + 1) % 65536

/-- FX75 saves `V[0]..V[min(X,7)]` to the RPL slots, in every mode, and keeps the other slots (43_index_memory.md R120;
decision D1 for the modes). -/
def Obligations.SaveRplCopiesTheFirstRegisters : Prop :=
  ∀ (s : State) (x : Reg), ∃ t, exec (.ldR x) s = .next t ∧ Completed false s t ∧ Keeps { rpl := true } s t
    ∧ ∀ k : Fin 8, t.rpl[k] = if k.val ≤ x.toNat then s.reg (BitVec.ofNat 4 k.val) else s.rpl[k]

/-- FX85 loads `V[0]..V[min(X,7)]` from the RPL slots and no other register (43_index_memory.md R121). -/
def Obligations.LoadRplCopiesTheFirstSlots : Prop :=
  ∀ (s : State) (x : Reg), (encode (.ldVxR x)).toNat = 0xF000 + 0x100 * x.toNat + 0x85 ∧
    ∃ t, exec (.ldVxR x) s = .next t ∧ Completed false s t
    ∧ Keeps { regs := (List.range (min x.toNat 7 + 1)).map (BitVec.ofNat 4) } s t
    ∧ ∀ k : Fin 8, k.val ≤ x.toNat → t.reg (BitVec.ofNat 4 k.val) = s.rpl[k]

/-! ### Timers and keypad -/

/-- FX07 reads the delay timer, FX15 and FX18 set the delay and the sound timer, and nothing else changes
(44_timers_input.md R122 to R124, general knowledge of the spec's). -/
def Obligations.TimerInstructionsMoveOneByte : Prop :=
  ∀ (s : State) (x : Reg),
    (∃ t, exec (.ldVxDt x) s = .next t ∧ Completed false s t ∧ Keeps { regs := [x] } s t ∧ t.reg x = s.delay)
    ∧ (∃ t, exec (.ldDt x) s = .next t ∧ Completed false s t ∧ Keeps { timers := true } s t
      ∧ t.delay = s.reg x ∧ t.sound = s.sound)
    ∧ (∃ t, exec (.ldSt x) s = .next t ∧ Completed false s t ∧ Keeps { timers := true } s t
      ∧ t.sound = s.reg x ∧ t.delay = s.delay)

/-- FX0A with a key down takes the least one and goes on; with none down it changes only `PC`, which goes back by 2
(44_timers_input.md R125; the choice of the least key is decision D17). -/
def Obligations.WaitForKeyTakesTheLeastKeyOrRetries : Prop :=
  ∀ (s : State) (x : Reg),
    (∀ k : Fin 16, s.input[k] = true → (∀ j : Fin 16, j < k → s.input[j] = false) →
      ∃ t, exec (.ldVxK x) s = .next t ∧ Completed false s t ∧ Keeps { regs := [x] } s t ∧ (t.reg x).toNat = k.val)
    ∧ ((∀ k : Fin 16, s.input[k] = false) →
      ∃ t, exec (.ldVxK x) s = .next t ∧ Completed false s t ∧ Keeps { pc := true } s t
        ∧ t.pc.toNat = (s.pc.toNat + 65534) % 65536)

/-- EX9E skips when the key that the low nibble of `V[X]` names is down, EXA1 when it is up (44_timers_input.md R126,
R127; the low nibble is decision D18). -/
def Obligations.KeySkipsTestTheLatch : Prop :=
  ∀ (s : State) (x : Reg) (k : Fin 16), k.val = (s.reg x).toNat % 16 →
    (∃ t, exec (.skp x) s = .next t ∧ Completed false s t ∧ Keeps { pc := true } s t
      ∧ t.pc.toNat = (s.pc.toNat + if s.input[k] = true then 2 else 0) % 65536)
    ∧ (∃ t, exec (.sknp x) s = .next t ∧ Completed false s t ∧ Keeps { pc := true } s t
      ∧ t.pc.toNat = (s.pc.toNat + if s.input[k] = true then 0 else 2) % 65536)

/-! ### Display -/

/-- CLS sets every pixel to 0, keeps everything else, `hiresMode` included, and asks for a redraw
(45_display.md R134, R142). -/
def Obligations.ClsClearsEveryPixel : Prop :=
  ∀ (s : State) (u : Nibble), (encode (.cls u)).toNat = 0x100 * u.toNat + 0xE0 ∧
    ∃ t, exec (.cls u) s = .next t ∧ Completed true s t ∧ Keeps { grid := true } s t
    ∧ ∀ x y, x < 128 → y < 64 → pixel t.grid x y = false

/-- LOW and HIGH set `hiresMode` and keep every pixel (45_display.md R135, R148, R149; the encodings and D10's draw
indication are the spec's own). -/
def Obligations.ResolutionSwitchKeepsTheGrid : Prop :=
  ∀ (s : State) (u : Nibble),
    (∃ t, exec (.low u) s = .next t ∧ Completed true s t ∧ Keeps { hiresMode := true } s t ∧ t.hiresMode = false)
    ∧ (∃ t, exec (.high u) s = .next t ∧ Completed true s t ∧ Keeps { hiresMode := true } s t ∧ t.hiresMode = true)

/-- SCR and SCL move every pixel by 4 physical columns in hires and 2 in lores, zeros entering (45_display.md R139, R146,
R147; the units are decision D16). -/
def Obligations.HorizontalScrollsMoveEveryPixel : Prop :=
  ∀ (s : State) (u : Nibble) (d : Nat), d = (if s.hiresMode = true then 4 else 2) →
    (∃ t, exec (.scr u) s = .next t ∧ Completed true s t ∧ Keeps { grid := true } s t
      ∧ ∀ x y, x < 128 → y < 64 → pixel t.grid x y = if d ≤ x then pixel s.grid (x - d) y else false)
    ∧ (∃ t, exec (.scl u) s = .next t ∧ Completed true s t ∧ Keeps { grid := true } s t
      ∧ ∀ x y, x < 128 → y < 64 → pixel t.grid x y = if x + d ≤ 127 then pixel s.grid (x + d) y else false)

/-- SCD and SCU move every pixel by N physical rows, rounded down to even in lores, zeros entering (45_display.md R140,
R143, R144; the units are decision D16). -/
def Obligations.VerticalScrollsMoveEveryPixel : Prop :=
  ∀ (s : State) (u n : Nibble) (c : Nat), c = (if s.hiresMode = true then n.toNat else n.toNat / 2 * 2) →
    (∃ t, exec (.scd u n) s = .next t ∧ Completed true s t ∧ Keeps { grid := true } s t
      ∧ ∀ x y, x < 128 → y < 64 → pixel t.grid x y = if c ≤ y then pixel s.grid x (y - c) else false)
    ∧ (∃ t, exec (.scu u n) s = .next t ∧ Completed true s t ∧ Keeps { grid := true } s t
      ∧ ∀ x y, x < 128 → y < 64 → pixel t.grid x y = if y + c ≤ 63 then pixel s.grid x (y + c) else false)

open Classical in
/-- DRW with an 8-wide sprite XORs exactly the physical pixels that a set sprite bit covers, and `VF` is 1 exactly when
one of them was 1; nothing else changes (45_display.md R136, R137, R150; the bit order, the origin, D9, D10, D11 and D13
are the spec's own). With height 0 in lores it draws nothing and clears `VF`. -/
def Obligations.DrwXorsTheSpriteAndFlagsTheCollision : Prop :=
  ∀ (s : State) (x y : Reg) (n : Nibble), ¬ (s.hiresMode = true ∧ n = 0#4) →
    ∃ t, exec (.drw x y n) s = .next t ∧ Completed true s t ∧ Keeps { regs := [vf], grid := true } s t
      ∧ (∀ px py, px < 128 → py < 64 →
          (pixel t.grid px py = true ↔
            ¬ (pixel s.grid px py = true ↔ Touches s (SpriteBit8 s n.toNat) x y px py)))
      ∧ t.reg vf = if (∃ px py, px < 128 ∧ py < 64 ∧ pixel s.grid px py = true
            ∧ Touches s (SpriteBit8 s n.toNat) x y px py) then 1#8 else 0#8

open Classical in
/-- DRW with N = 0 in hires draws the 16×16 sprite: it XORs exactly the pixels its set bits cover, and `VF` is the number of
rows that collided or were clipped (45_display.md R138, R150; D9, D10, D11, D14, D15 are the spec's own). -/
def Obligations.BigSpriteXorsAndCountsTheRowsThatHit : Prop :=
  ∀ (s : State) (x y : Reg), s.hiresMode = true →
    ∃ t, exec (.drw x y 0#4) s = .next t ∧ Completed true s t ∧ Keeps { regs := [vf], grid := true } s t
      ∧ (∀ px py, px < 128 → py < 64 →
          (pixel t.grid px py = true ↔ ¬ (pixel s.grid px py = true ↔ Touches s (SpriteBit16 s) x y px py)))
      ∧ (t.reg vf).toNat = ((Finset.range 16).filter fun r => RowHits s x y r).card

/-- Drawing the same sprite twice at the same place restores the grid, when the coordinates do not come from `VF`
(45_display.md R150's example; derived). -/
def Obligations.DrawingTwiceRestoresTheGrid : Prop :=
  ∀ (s : State) (x y : Reg) (n : Nibble), x ≠ vf → y ≠ vf →
    ∃ t r, exec (.drw x y n) s = .next t ∧ exec (.drw x y n) { t with pc := BitVec.ofNat 16 (t.pc.toNat + 2) } = .next r
      ∧ r.grid = s.grid

/-! ### Illegal words -/

/-- Each of the ILLEGAL rows raises `IllegalOpcode` with the whole word and changes nothing of the Machine State
(60_exceptions.md R153, R159; decision D2 for the groups 0x5, 0x9 and 0xE). -/
def Obligations.IllegalWordsRaiseIllegalOpcode : Prop :=
  ∀ (s : State) (x y n : Nibble) (nn : Byte) (i : Instr),
    i = .illegal5 x y n ∨ i = .illegal8XY8 x y ∨ i = .illegal8XY9 x y ∨ i = .illegal8XYA x y ∨ i = .illegal8XYB x y
      ∨ i = .illegal8XYC x y ∨ i = .illegal8XYD x y ∨ i = .illegal8XYF x y ∨ i = .illegal9 x y n
      ∨ i = .illegalE x nn ∨ i = .illegalF x nn →
    ∃ t, exec i s = .next t ∧ Faulted (.illegalOpcode (encode i)) s t

/-! ### Host transactions -/

/-- `power_and_load` rejects a ROM longer than 0xE00 bytes: it answers the error and no next state
(60_exceptions.md R155). -/
def Obligations.OversizedRomIsRejected : Prop :=
  ∀ (s : State) (rom : List Byte) (mode : Mode), rom.length > 0x1000 - 0x200 →
    powerAndLoad rom mode s = .fault (.romTooLarge rom.length) ∧ hostRun [.powerAndLoad rom mode] s = s

/-- `power_and_load` of a ROM that fits leaves every element at the value of the reset table, the ROM at 0x200 and the
fonts below it (70_reset_and_hazards.md R168, R169; D12, D19, D20 and D21 are the spec's own). That the record beside the
Machine State stays is the model's choice (log 14); what font parameters that overlap or run past 0xFFF give is the model's
reading of R168 (log 17). -/
def Obligations.PowerAndLoadResetsEveryElement : Prop :=
  ∀ (s : State) (rom : List Byte) (mode : Mode), rom.length ≤ 0xE00 →
    ∃ t, powerAndLoad rom mode s = .next t
      ∧ (∀ r, t.reg r = 0#8) ∧ t.i = 0#16 ∧ t.pc = 0x200#16 ∧ t.sp.val = 0 ∧ (∀ k : Fin 16, t.stack[k] = 0#16)
      ∧ (∀ k : Fin 8, t.rpl[k] = 0#8) ∧ t.delay = 0#8 ∧ t.sound = 0#8 ∧ (∀ k : Fin 16, t.input[k] = false)
      ∧ (∀ x y, pixel t.grid x y = false) ∧ t.hiresMode = false ∧ t.wraparound = s.outside.params.wraparound
      ∧ t.mode = mode ∧ t.draw = false ∧ t.powered = true ∧ t.outside = s.outside
      ∧ (∀ k (h : k < rom.length), t.memRead (0x200 + k) = rom[k])
      ∧ (∀ a, a < 0x1000 → (a < 0x200 ∨ 0x200 + rom.length ≤ a) →
          t.memRead a =
            if s.outside.params.bigFontBase.toNat ≤ a
                ∧ a < s.outside.params.bigFontBase.toNat + s.outside.params.bigFont.length then
              s.outside.params.bigFont.getD (a - s.outside.params.bigFontBase.toNat) 0#8
            else if a < s.outside.params.fontSmall.length then s.outside.params.fontSmall.getD a 0#8 else 0#8)

/-- `set_input` writes one latch and nothing else, and a key outside 0..15 spells no call (10_state.md R37). -/
def Obligations.SetInputWritesOneLatch : Prop :=
  ∀ (s : State) (key : Nat) (pressed : Bool),
    (key < 16 → ∃ t, setInput key pressed s = .next t ∧ { t with input := s.input } = s
      ∧ ∀ k : Fin 16, t.input[k] = if k.val = key then pressed else s.input[k])
    ∧ (16 ≤ key → setInput key pressed s = .refused (.noSuchKey key))

/-- `decrement_timers` takes one from each timer, floored at 0, and changes nothing else (44_timers_input.md R128). -/
def Obligations.TimersCountDownToZero : Prop :=
  ∀ s : State, ∃ t, decrementTimers s = .next t ∧ t.delay.toNat = s.delay.toNat - 1
    ∧ t.sound.toNat = s.sound.toNat - 1 ∧ { t with delay := s.delay, sound := s.sound } = s

/-! ### The end of a run -/

/-- A run ends where the host stops it, after any transaction, and what can be observed then is the snapshot at that boundary
and the list of results `cycle()` returned, in order (70_reset_and_hazards.md R176): a further transaction continues from
that snapshot; each cycle adds exactly the result it returned, completed or faulted, at the end of the list; a cycle without
power and every other transaction add nothing. The form of the list is the model's (log 5). -/
def Obligations.RunEndIsTheSnapshotAndEveryResult : Prop :=
  ∀ (run : List Transaction) (s : State),
    runEnd [] s = { snapshot := s, results := [] }
    ∧ ∀ tr, (∀ t, transact tr (runEnd run s).snapshot = .next t → (runEnd (run ++ [tr]) s).snapshot = t)
      ∧ ((∀ t, transact tr (runEnd run s).snapshot ≠ .next t) → runEnd (run ++ [tr]) s = runEnd run s)
      ∧ (tr ≠ .cycle → (runEnd (run ++ [tr]) s).results = (runEnd run s).results)
      ∧ (tr = .cycle → (runEnd run s).snapshot.powered = true → ∃ r,
          (runEnd (run ++ [tr]) s).results = (runEnd run s).results ++ [r]
          ∧ (runEnd (run ++ [tr]) s).snapshot.outside.result = some r
          ∧ (r = .completed (runEnd (run ++ [tr]) s).snapshot.draw ∨ ∃ f, r = .faulted f))
end

