-- ==== Sys2Proof/Laws/Decode.lean ====
section
/-! SUPPORT. The fields of a word built from its parts, and a word rebuilt from its fields. -/

namespace Sys2Proof

/-! ### Numbers of joined fields -/

theorem append_toNat {m k : Nat} (a : BitVec m) (b : BitVec k) : (a ++ b).toNat = a.toNat * 2 ^ k + b.toNat := by
  rw [BitVec.toNat_append, Nat.shiftLeft_eq, Nat.mul_comm, Nat.two_pow_add_eq_or_of_lt b.isLt]

theorem nibbles_toNat (t x y n : Nibble) :
    (nibbles t x y n).toNat = t.toNat * 4096 + x.toNat * 256 + y.toNat * 16 + n.toNat := by
  simp only [nibbles, append_toNat]; omega

theorem nibblesByte_toNat (t x : Nibble) (nn : Byte) :
    (nibblesByte t x nn).toNat = t.toNat * 4096 + x.toNat * 256 + nn.toNat := by
  simp only [nibblesByte, append_toNat]; omega

theorem nibbleAddr_toNat (t : Nibble) (nnn : Addr) : (nibbleAddr t nnn).toNat = t.toNat * 4096 + nnn.toNat := by
  simp only [nibbleAddr, append_toNat]; omega

theorem wordOfBytes_toNat (hi lo : Byte) : (wordOfBytes hi lo).toNat = hi.toNat * 256 + lo.toNat := by
  simp only [wordOfBytes, append_toNat]; omega

/-! ### Numbers of fields -/

theorem fieldT_toNat (w : Word) : (fieldT w).toNat = w.toNat / 4096 := by
  have := w.isLt
  simp only [fieldT, BitVec.extractLsb'_toNat, Nat.shiftRight_eq_div_pow]; omega

theorem fieldX_toNat (w : Word) : (fieldX w).toNat = w.toNat / 256 % 16 := by
  simp only [fieldX, BitVec.extractLsb'_toNat, Nat.shiftRight_eq_div_pow]

theorem fieldY_toNat (w : Word) : (fieldY w).toNat = w.toNat / 16 % 16 := by
  simp only [fieldY, BitVec.extractLsb'_toNat, Nat.shiftRight_eq_div_pow]

theorem fieldN_toNat (w : Word) : (fieldN w).toNat = w.toNat % 16 := by
  simp only [fieldN, BitVec.extractLsb'_toNat, Nat.shiftRight_eq_div_pow]; omega

theorem fieldNN_toNat (w : Word) : (fieldNN w).toNat = w.toNat % 256 := by
  simp only [fieldNN, BitVec.extractLsb'_toNat, Nat.shiftRight_eq_div_pow]; omega

theorem fieldNNN_toNat (w : Word) : (fieldNNN w).toNat = w.toNat % 4096 := by
  simp only [fieldNNN, BitVec.extractLsb'_toNat, Nat.shiftRight_eq_div_pow]; omega

/-! ### The fields of a built word -/

section
variable (t x y n : Nibble) (nn : Byte) (nnn : Addr)

@[simp] theorem fieldT_nibbles : fieldT (nibbles t x y n) = t := by
  apply BitVec.eq_of_toNat_eq; rw [fieldT_toNat, nibbles_toNat]; omega
@[simp] theorem fieldX_nibbles : fieldX (nibbles t x y n) = x := by
  apply BitVec.eq_of_toNat_eq; rw [fieldX_toNat, nibbles_toNat]; omega
@[simp] theorem fieldY_nibbles : fieldY (nibbles t x y n) = y := by
  apply BitVec.eq_of_toNat_eq; rw [fieldY_toNat, nibbles_toNat]; omega
@[simp] theorem fieldN_nibbles : fieldN (nibbles t x y n) = n := by
  apply BitVec.eq_of_toNat_eq; rw [fieldN_toNat, nibbles_toNat]; omega
theorem fieldNN_nibbles_toNat : (fieldNN (nibbles t x y n)).toNat = y.toNat * 16 + n.toNat := by
  rw [fieldNN_toNat, nibbles_toNat]; omega
@[simp] theorem fieldT_nibblesByte : fieldT (nibblesByte t x nn) = t := by
  apply BitVec.eq_of_toNat_eq; rw [fieldT_toNat, nibblesByte_toNat]; omega
@[simp] theorem fieldX_nibblesByte : fieldX (nibblesByte t x nn) = x := by
  apply BitVec.eq_of_toNat_eq; rw [fieldX_toNat, nibblesByte_toNat]; omega
@[simp] theorem fieldNN_nibblesByte : fieldNN (nibblesByte t x nn) = nn := by
  apply BitVec.eq_of_toNat_eq; rw [fieldNN_toNat, nibblesByte_toNat]; omega
@[simp] theorem fieldT_nibbleAddr : fieldT (nibbleAddr t nnn) = t := by
  apply BitVec.eq_of_toNat_eq; rw [fieldT_toNat, nibbleAddr_toNat]; omega
@[simp] theorem fieldNNN_nibbleAddr : fieldNNN (nibbleAddr t nnn) = nnn := by
  apply BitVec.eq_of_toNat_eq; rw [fieldNNN_toNat, nibbleAddr_toNat]; omega
end

/-! ### A word rebuilt from its fields -/

theorem nibbles_fields (w : Word) : nibbles (fieldT w) (fieldX w) (fieldY w) (fieldN w) = w := by
  apply BitVec.eq_of_toNat_eq
  rw [nibbles_toNat, fieldT_toNat, fieldX_toNat, fieldY_toNat, fieldN_toNat]; omega

theorem nibblesByte_fields (w : Word) : nibblesByte (fieldT w) (fieldX w) (fieldNN w) = w := by
  apply BitVec.eq_of_toNat_eq
  rw [nibblesByte_toNat, fieldT_toNat, fieldX_toNat, fieldNN_toNat]; omega

theorem nibbleAddr_fields (w : Word) : nibbleAddr (fieldT w) (fieldNNN w) = w := by
  apply BitVec.eq_of_toNat_eq
  rw [nibbleAddr_toNat, fieldT_toNat, fieldNNN_toNat]; omega

theorem wordOfBytes_bytes (w : Word) : wordOfBytes (highByte w) (lowByte w) = w := by
  have := w.isLt
  apply BitVec.eq_of_toNat_eq
  simp only [wordOfBytes_toNat, highByte, lowByte, BitVec.extractLsb'_toNat, Nat.shiftRight_eq_div_pow]; omega

end Sys2Proof
end

