-- ==== Sys2Proof/Laws/State.lean ====
section
/-! SUPPORT. One lemma per field per update of the state, and what a register read or a byte read gives after each
update, so that no proof unfolds a record update. -/

namespace Sys2Proof.Machine

variable (s : State)

/-! ### setReg -/

@[simp] theorem setReg_v (r : Reg) (b : Byte) : (s.setReg r b).v = s.v.set r.toNat b r.isLt := rfl
@[simp] theorem setReg_i (r : Reg) (b : Byte) : (s.setReg r b).i = s.i := rfl
@[simp] theorem setReg_pc (r : Reg) (b : Byte) : (s.setReg r b).pc = s.pc := rfl
@[simp] theorem setReg_stack (r : Reg) (b : Byte) : (s.setReg r b).stack = s.stack := rfl
@[simp] theorem setReg_sp (r : Reg) (b : Byte) : (s.setReg r b).sp = s.sp := rfl
@[simp] theorem setReg_rpl (r : Reg) (b : Byte) : (s.setReg r b).rpl = s.rpl := rfl
@[simp] theorem setReg_delay (r : Reg) (b : Byte) : (s.setReg r b).delay = s.delay := rfl
@[simp] theorem setReg_sound (r : Reg) (b : Byte) : (s.setReg r b).sound = s.sound := rfl
@[simp] theorem setReg_input (r : Reg) (b : Byte) : (s.setReg r b).input = s.input := rfl
@[simp] theorem setReg_mem (r : Reg) (b : Byte) : (s.setReg r b).mem = s.mem := rfl
@[simp] theorem setReg_mode (r : Reg) (b : Byte) : (s.setReg r b).mode = s.mode := rfl
@[simp] theorem setReg_grid (r : Reg) (b : Byte) : (s.setReg r b).grid = s.grid := rfl
@[simp] theorem setReg_hiresMode (r : Reg) (b : Byte) : (s.setReg r b).hiresMode = s.hiresMode := rfl
@[simp] theorem setReg_wraparound (r : Reg) (b : Byte) : (s.setReg r b).wraparound = s.wraparound := rfl
@[simp] theorem setReg_powered (r : Reg) (b : Byte) : (s.setReg r b).powered = s.powered := rfl
@[simp] theorem setReg_draw (r : Reg) (b : Byte) : (s.setReg r b).draw = s.draw := rfl
@[simp] theorem setReg_outside (r : Reg) (b : Byte) : (s.setReg r b).outside = s.outside := rfl
@[simp] theorem setReg_memRead (r : Reg) (b : Byte) (q : Nat) : (s.setReg r b).memRead q = s.memRead q := rfl

/-! ### setResultFlag -/

@[simp] theorem setResultFlag_i (x : Reg) (b f : Byte) : (s.setResultFlag x b f).i = s.i := rfl
@[simp] theorem setResultFlag_pc (x : Reg) (b f : Byte) : (s.setResultFlag x b f).pc = s.pc := rfl
@[simp] theorem setResultFlag_stack (x : Reg) (b f : Byte) : (s.setResultFlag x b f).stack = s.stack := rfl
@[simp] theorem setResultFlag_sp (x : Reg) (b f : Byte) : (s.setResultFlag x b f).sp = s.sp := rfl
@[simp] theorem setResultFlag_rpl (x : Reg) (b f : Byte) : (s.setResultFlag x b f).rpl = s.rpl := rfl
@[simp] theorem setResultFlag_delay (x : Reg) (b f : Byte) : (s.setResultFlag x b f).delay = s.delay := rfl
@[simp] theorem setResultFlag_sound (x : Reg) (b f : Byte) : (s.setResultFlag x b f).sound = s.sound := rfl
@[simp] theorem setResultFlag_input (x : Reg) (b f : Byte) : (s.setResultFlag x b f).input = s.input := rfl
@[simp] theorem setResultFlag_mem (x : Reg) (b f : Byte) : (s.setResultFlag x b f).mem = s.mem := rfl
@[simp] theorem setResultFlag_mode (x : Reg) (b f : Byte) : (s.setResultFlag x b f).mode = s.mode := rfl
@[simp] theorem setResultFlag_grid (x : Reg) (b f : Byte) : (s.setResultFlag x b f).grid = s.grid := rfl
@[simp] theorem setResultFlag_hiresMode (x : Reg) (b f : Byte) : (s.setResultFlag x b f).hiresMode = s.hiresMode := rfl
@[simp] theorem setResultFlag_wraparound (x : Reg) (b f : Byte) : (s.setResultFlag x b f).wraparound = s.wraparound := rfl
@[simp] theorem setResultFlag_powered (x : Reg) (b f : Byte) : (s.setResultFlag x b f).powered = s.powered := rfl
@[simp] theorem setResultFlag_draw (x : Reg) (b f : Byte) : (s.setResultFlag x b f).draw = s.draw := rfl
@[simp] theorem setResultFlag_outside (x : Reg) (b f : Byte) : (s.setResultFlag x b f).outside = s.outside := rfl
@[simp] theorem setResultFlag_memRead (x : Reg) (b f : Byte) (q : Nat) : (s.setResultFlag x b f).memRead q = s.memRead q := rfl

/-! ### setPc -/

@[simp] theorem setPc_v (t : Word) : (s.setPc t).v = s.v := rfl
@[simp] theorem setPc_i (t : Word) : (s.setPc t).i = s.i := rfl
@[simp] theorem setPc_pc (t : Word) : (s.setPc t).pc = t := rfl
@[simp] theorem setPc_stack (t : Word) : (s.setPc t).stack = s.stack := rfl
@[simp] theorem setPc_sp (t : Word) : (s.setPc t).sp = s.sp := rfl
@[simp] theorem setPc_rpl (t : Word) : (s.setPc t).rpl = s.rpl := rfl
@[simp] theorem setPc_delay (t : Word) : (s.setPc t).delay = s.delay := rfl
@[simp] theorem setPc_sound (t : Word) : (s.setPc t).sound = s.sound := rfl
@[simp] theorem setPc_input (t : Word) : (s.setPc t).input = s.input := rfl
@[simp] theorem setPc_mem (t : Word) : (s.setPc t).mem = s.mem := rfl
@[simp] theorem setPc_mode (t : Word) : (s.setPc t).mode = s.mode := rfl
@[simp] theorem setPc_grid (t : Word) : (s.setPc t).grid = s.grid := rfl
@[simp] theorem setPc_hiresMode (t : Word) : (s.setPc t).hiresMode = s.hiresMode := rfl
@[simp] theorem setPc_wraparound (t : Word) : (s.setPc t).wraparound = s.wraparound := rfl
@[simp] theorem setPc_powered (t : Word) : (s.setPc t).powered = s.powered := rfl
@[simp] theorem setPc_draw (t : Word) : (s.setPc t).draw = s.draw := rfl
@[simp] theorem setPc_outside (t : Word) : (s.setPc t).outside = s.outside := rfl
@[simp] theorem setPc_reg (t : Word) (q : Reg) : (s.setPc t).reg q = s.reg q := rfl
@[simp] theorem setPc_memRead (t : Word) (q : Nat) : (s.setPc t).memRead q = s.memRead q := rfl

/-! ### setI -/

@[simp] theorem setI_v (t : Word) : (s.setI t).v = s.v := rfl
@[simp] theorem setI_i (t : Word) : (s.setI t).i = t := rfl
@[simp] theorem setI_pc (t : Word) : (s.setI t).pc = s.pc := rfl
@[simp] theorem setI_stack (t : Word) : (s.setI t).stack = s.stack := rfl
@[simp] theorem setI_sp (t : Word) : (s.setI t).sp = s.sp := rfl
@[simp] theorem setI_rpl (t : Word) : (s.setI t).rpl = s.rpl := rfl
@[simp] theorem setI_delay (t : Word) : (s.setI t).delay = s.delay := rfl
@[simp] theorem setI_sound (t : Word) : (s.setI t).sound = s.sound := rfl
@[simp] theorem setI_input (t : Word) : (s.setI t).input = s.input := rfl
@[simp] theorem setI_mem (t : Word) : (s.setI t).mem = s.mem := rfl
@[simp] theorem setI_mode (t : Word) : (s.setI t).mode = s.mode := rfl
@[simp] theorem setI_grid (t : Word) : (s.setI t).grid = s.grid := rfl
@[simp] theorem setI_hiresMode (t : Word) : (s.setI t).hiresMode = s.hiresMode := rfl
@[simp] theorem setI_wraparound (t : Word) : (s.setI t).wraparound = s.wraparound := rfl
@[simp] theorem setI_powered (t : Word) : (s.setI t).powered = s.powered := rfl
@[simp] theorem setI_draw (t : Word) : (s.setI t).draw = s.draw := rfl
@[simp] theorem setI_outside (t : Word) : (s.setI t).outside = s.outside := rfl
@[simp] theorem setI_reg (t : Word) (q : Reg) : (s.setI t).reg q = s.reg q := rfl
@[simp] theorem setI_memRead (t : Word) (q : Nat) : (s.setI t).memRead q = s.memRead q := rfl

/-! ### advance -/

@[simp] theorem advance_v : (s.advance).v = s.v := rfl
@[simp] theorem advance_i : (s.advance).i = s.i := rfl
@[simp] theorem advance_pc : (s.advance).pc = s.pc + 2#16 := rfl
@[simp] theorem advance_stack : (s.advance).stack = s.stack := rfl
@[simp] theorem advance_sp : (s.advance).sp = s.sp := rfl
@[simp] theorem advance_rpl : (s.advance).rpl = s.rpl := rfl
@[simp] theorem advance_delay : (s.advance).delay = s.delay := rfl
@[simp] theorem advance_sound : (s.advance).sound = s.sound := rfl
@[simp] theorem advance_input : (s.advance).input = s.input := rfl
@[simp] theorem advance_mem : (s.advance).mem = s.mem := rfl
@[simp] theorem advance_mode : (s.advance).mode = s.mode := rfl
@[simp] theorem advance_grid : (s.advance).grid = s.grid := rfl
@[simp] theorem advance_hiresMode : (s.advance).hiresMode = s.hiresMode := rfl
@[simp] theorem advance_wraparound : (s.advance).wraparound = s.wraparound := rfl
@[simp] theorem advance_powered : (s.advance).powered = s.powered := rfl
@[simp] theorem advance_draw : (s.advance).draw = s.draw := rfl
@[simp] theorem advance_outside : (s.advance).outside = s.outside := rfl
@[simp] theorem advance_reg (q : Reg) : (s.advance).reg q = s.reg q := rfl
@[simp] theorem advance_memRead (q : Nat) : (s.advance).memRead q = s.memRead q := rfl

/-! ### retry -/

@[simp] theorem retry_v : (s.retry).v = s.v := rfl
@[simp] theorem retry_i : (s.retry).i = s.i := rfl
@[simp] theorem retry_pc : (s.retry).pc = s.pc - 2#16 := rfl
@[simp] theorem retry_stack : (s.retry).stack = s.stack := rfl
@[simp] theorem retry_sp : (s.retry).sp = s.sp := rfl
@[simp] theorem retry_rpl : (s.retry).rpl = s.rpl := rfl
@[simp] theorem retry_delay : (s.retry).delay = s.delay := rfl
@[simp] theorem retry_sound : (s.retry).sound = s.sound := rfl
@[simp] theorem retry_input : (s.retry).input = s.input := rfl
@[simp] theorem retry_mem : (s.retry).mem = s.mem := rfl
@[simp] theorem retry_mode : (s.retry).mode = s.mode := rfl
@[simp] theorem retry_grid : (s.retry).grid = s.grid := rfl
@[simp] theorem retry_hiresMode : (s.retry).hiresMode = s.hiresMode := rfl
@[simp] theorem retry_wraparound : (s.retry).wraparound = s.wraparound := rfl
@[simp] theorem retry_powered : (s.retry).powered = s.powered := rfl
@[simp] theorem retry_draw : (s.retry).draw = s.draw := rfl
@[simp] theorem retry_outside : (s.retry).outside = s.outside := rfl
@[simp] theorem retry_reg (q : Reg) : (s.retry).reg q = s.reg q := rfl
@[simp] theorem retry_memRead (q : Nat) : (s.retry).memRead q = s.memRead q := rfl

/-! ### push -/

@[simp] theorem push_v (a : Word) : (s.push a).v = s.v := rfl
@[simp] theorem push_i (a : Word) : (s.push a).i = s.i := rfl
@[simp] theorem push_pc (a : Word) : (s.push a).pc = s.pc := rfl
@[simp] theorem push_stack (a : Word) : (s.push a).stack = s.stack.setIfInBounds s.sp.val a := rfl
@[simp] theorem push_sp (a : Word) : (s.push a).sp = Fin.ofNat 17 (s.sp.val + 1) := rfl
@[simp] theorem push_rpl (a : Word) : (s.push a).rpl = s.rpl := rfl
@[simp] theorem push_delay (a : Word) : (s.push a).delay = s.delay := rfl
@[simp] theorem push_sound (a : Word) : (s.push a).sound = s.sound := rfl
@[simp] theorem push_input (a : Word) : (s.push a).input = s.input := rfl
@[simp] theorem push_mem (a : Word) : (s.push a).mem = s.mem := rfl
@[simp] theorem push_mode (a : Word) : (s.push a).mode = s.mode := rfl
@[simp] theorem push_grid (a : Word) : (s.push a).grid = s.grid := rfl
@[simp] theorem push_hiresMode (a : Word) : (s.push a).hiresMode = s.hiresMode := rfl
@[simp] theorem push_wraparound (a : Word) : (s.push a).wraparound = s.wraparound := rfl
@[simp] theorem push_powered (a : Word) : (s.push a).powered = s.powered := rfl
@[simp] theorem push_draw (a : Word) : (s.push a).draw = s.draw := rfl
@[simp] theorem push_outside (a : Word) : (s.push a).outside = s.outside := rfl
@[simp] theorem push_reg (a : Word) (q : Reg) : (s.push a).reg q = s.reg q := rfl
@[simp] theorem push_memRead (a : Word) (q : Nat) : (s.push a).memRead q = s.memRead q := rfl

/-! ### pop -/

@[simp] theorem pop_v : (s.pop).v = s.v := rfl
@[simp] theorem pop_i : (s.pop).i = s.i := rfl
@[simp] theorem pop_pc : (s.pop).pc = s.pc := rfl
@[simp] theorem pop_stack : (s.pop).stack = s.stack := rfl
@[simp] theorem pop_sp : (s.pop).sp = Fin.ofNat 17 (s.sp.val - 1) := rfl
@[simp] theorem pop_rpl : (s.pop).rpl = s.rpl := rfl
@[simp] theorem pop_delay : (s.pop).delay = s.delay := rfl
@[simp] theorem pop_sound : (s.pop).sound = s.sound := rfl
@[simp] theorem pop_input : (s.pop).input = s.input := rfl
@[simp] theorem pop_mem : (s.pop).mem = s.mem := rfl
@[simp] theorem pop_mode : (s.pop).mode = s.mode := rfl
@[simp] theorem pop_grid : (s.pop).grid = s.grid := rfl
@[simp] theorem pop_hiresMode : (s.pop).hiresMode = s.hiresMode := rfl
@[simp] theorem pop_wraparound : (s.pop).wraparound = s.wraparound := rfl
@[simp] theorem pop_powered : (s.pop).powered = s.powered := rfl
@[simp] theorem pop_draw : (s.pop).draw = s.draw := rfl
@[simp] theorem pop_outside : (s.pop).outside = s.outside := rfl
@[simp] theorem pop_reg (q : Reg) : (s.pop).reg q = s.reg q := rfl
@[simp] theorem pop_memRead (q : Nat) : (s.pop).memRead q = s.memRead q := rfl

/-! ### memWrite -/

@[simp] theorem memWrite_v (a : Nat) (b : Byte) : (s.memWrite a b).v = s.v := rfl
@[simp] theorem memWrite_i (a : Nat) (b : Byte) : (s.memWrite a b).i = s.i := rfl
@[simp] theorem memWrite_pc (a : Nat) (b : Byte) : (s.memWrite a b).pc = s.pc := rfl
@[simp] theorem memWrite_stack (a : Nat) (b : Byte) : (s.memWrite a b).stack = s.stack := rfl
@[simp] theorem memWrite_sp (a : Nat) (b : Byte) : (s.memWrite a b).sp = s.sp := rfl
@[simp] theorem memWrite_rpl (a : Nat) (b : Byte) : (s.memWrite a b).rpl = s.rpl := rfl
@[simp] theorem memWrite_delay (a : Nat) (b : Byte) : (s.memWrite a b).delay = s.delay := rfl
@[simp] theorem memWrite_sound (a : Nat) (b : Byte) : (s.memWrite a b).sound = s.sound := rfl
@[simp] theorem memWrite_input (a : Nat) (b : Byte) : (s.memWrite a b).input = s.input := rfl
@[simp] theorem memWrite_mem (a : Nat) (b : Byte) : (s.memWrite a b).mem = Memory.write s.outside.params s.mem (mask12 a) b := rfl
@[simp] theorem memWrite_mode (a : Nat) (b : Byte) : (s.memWrite a b).mode = s.mode := rfl
@[simp] theorem memWrite_grid (a : Nat) (b : Byte) : (s.memWrite a b).grid = s.grid := rfl
@[simp] theorem memWrite_hiresMode (a : Nat) (b : Byte) : (s.memWrite a b).hiresMode = s.hiresMode := rfl
@[simp] theorem memWrite_wraparound (a : Nat) (b : Byte) : (s.memWrite a b).wraparound = s.wraparound := rfl
@[simp] theorem memWrite_powered (a : Nat) (b : Byte) : (s.memWrite a b).powered = s.powered := rfl
@[simp] theorem memWrite_draw (a : Nat) (b : Byte) : (s.memWrite a b).draw = s.draw := rfl
@[simp] theorem memWrite_outside (a : Nat) (b : Byte) : (s.memWrite a b).outside = s.outside := rfl
@[simp] theorem memWrite_reg (a : Nat) (b : Byte) (q : Reg) : (s.memWrite a b).reg q = s.reg q := rfl

/-! ### drawTaken -/

@[simp] theorem drawTaken_v : (s.drawTaken).v = s.v := rfl
@[simp] theorem drawTaken_i : (s.drawTaken).i = s.i := rfl
@[simp] theorem drawTaken_pc : (s.drawTaken).pc = s.pc := rfl
@[simp] theorem drawTaken_stack : (s.drawTaken).stack = s.stack := rfl
@[simp] theorem drawTaken_sp : (s.drawTaken).sp = s.sp := rfl
@[simp] theorem drawTaken_rpl : (s.drawTaken).rpl = s.rpl := rfl
@[simp] theorem drawTaken_delay : (s.drawTaken).delay = s.delay := rfl
@[simp] theorem drawTaken_sound : (s.drawTaken).sound = s.sound := rfl
@[simp] theorem drawTaken_input : (s.drawTaken).input = s.input := rfl
@[simp] theorem drawTaken_mem : (s.drawTaken).mem = s.mem := rfl
@[simp] theorem drawTaken_mode : (s.drawTaken).mode = s.mode := rfl
@[simp] theorem drawTaken_grid : (s.drawTaken).grid = s.grid := rfl
@[simp] theorem drawTaken_hiresMode : (s.drawTaken).hiresMode = s.hiresMode := rfl
@[simp] theorem drawTaken_wraparound : (s.drawTaken).wraparound = s.wraparound := rfl
@[simp] theorem drawTaken_powered : (s.drawTaken).powered = s.powered := rfl
@[simp] theorem drawTaken_draw : (s.drawTaken).draw = s.draw := rfl
@[simp] theorem drawTaken_params : s.drawTaken.outside.params = s.outside.params := rfl
@[simp] theorem drawTaken_draws : s.drawTaken.outside.draws = s.outside.draws + 1 := rfl
@[simp] theorem drawTaken_results : s.drawTaken.outside.results = s.outside.results := rfl
@[simp] theorem drawTaken_result : s.drawTaken.outside.result = s.outside.result := rfl
@[simp] theorem drawTaken_faults : s.drawTaken.outside.faults = s.outside.faults := rfl
@[simp] theorem drawTaken_reg (q : Reg) : (s.drawTaken).reg q = s.reg q := rfl
@[simp] theorem drawTaken_memRead (q : Nat) : (s.drawTaken).memRead q = s.memRead q := rfl

/-! ### loadRegs -/

@[simp] theorem loadRegs_i (x : Reg) : (s.loadRegs x).i = s.i := rfl
@[simp] theorem loadRegs_pc (x : Reg) : (s.loadRegs x).pc = s.pc := rfl
@[simp] theorem loadRegs_stack (x : Reg) : (s.loadRegs x).stack = s.stack := rfl
@[simp] theorem loadRegs_sp (x : Reg) : (s.loadRegs x).sp = s.sp := rfl
@[simp] theorem loadRegs_rpl (x : Reg) : (s.loadRegs x).rpl = s.rpl := rfl
@[simp] theorem loadRegs_delay (x : Reg) : (s.loadRegs x).delay = s.delay := rfl
@[simp] theorem loadRegs_sound (x : Reg) : (s.loadRegs x).sound = s.sound := rfl
@[simp] theorem loadRegs_input (x : Reg) : (s.loadRegs x).input = s.input := rfl
@[simp] theorem loadRegs_mem (x : Reg) : (s.loadRegs x).mem = s.mem := rfl
@[simp] theorem loadRegs_mode (x : Reg) : (s.loadRegs x).mode = s.mode := rfl
@[simp] theorem loadRegs_grid (x : Reg) : (s.loadRegs x).grid = s.grid := rfl
@[simp] theorem loadRegs_hiresMode (x : Reg) : (s.loadRegs x).hiresMode = s.hiresMode := rfl
@[simp] theorem loadRegs_wraparound (x : Reg) : (s.loadRegs x).wraparound = s.wraparound := rfl
@[simp] theorem loadRegs_powered (x : Reg) : (s.loadRegs x).powered = s.powered := rfl
@[simp] theorem loadRegs_draw (x : Reg) : (s.loadRegs x).draw = s.draw := rfl
@[simp] theorem loadRegs_outside (x : Reg) : (s.loadRegs x).outside = s.outside := rfl
@[simp] theorem loadRegs_memRead (x : Reg) (q : Nat) : (s.loadRegs x).memRead q = s.memRead q := rfl

/-! ### saveRpl -/

@[simp] theorem saveRpl_v (x : Reg) : (s.saveRpl x).v = s.v := rfl
@[simp] theorem saveRpl_i (x : Reg) : (s.saveRpl x).i = s.i := rfl
@[simp] theorem saveRpl_pc (x : Reg) : (s.saveRpl x).pc = s.pc := rfl
@[simp] theorem saveRpl_stack (x : Reg) : (s.saveRpl x).stack = s.stack := rfl
@[simp] theorem saveRpl_sp (x : Reg) : (s.saveRpl x).sp = s.sp := rfl
@[simp] theorem saveRpl_delay (x : Reg) : (s.saveRpl x).delay = s.delay := rfl
@[simp] theorem saveRpl_sound (x : Reg) : (s.saveRpl x).sound = s.sound := rfl
@[simp] theorem saveRpl_input (x : Reg) : (s.saveRpl x).input = s.input := rfl
@[simp] theorem saveRpl_mem (x : Reg) : (s.saveRpl x).mem = s.mem := rfl
@[simp] theorem saveRpl_mode (x : Reg) : (s.saveRpl x).mode = s.mode := rfl
@[simp] theorem saveRpl_grid (x : Reg) : (s.saveRpl x).grid = s.grid := rfl
@[simp] theorem saveRpl_hiresMode (x : Reg) : (s.saveRpl x).hiresMode = s.hiresMode := rfl
@[simp] theorem saveRpl_wraparound (x : Reg) : (s.saveRpl x).wraparound = s.wraparound := rfl
@[simp] theorem saveRpl_powered (x : Reg) : (s.saveRpl x).powered = s.powered := rfl
@[simp] theorem saveRpl_draw (x : Reg) : (s.saveRpl x).draw = s.draw := rfl
@[simp] theorem saveRpl_outside (x : Reg) : (s.saveRpl x).outside = s.outside := rfl
@[simp] theorem saveRpl_reg (x : Reg) (q : Reg) : (s.saveRpl x).reg q = s.reg q := rfl
@[simp] theorem saveRpl_memRead (x : Reg) (q : Nat) : (s.saveRpl x).memRead q = s.memRead q := rfl

/-! ### loadRpl -/

@[simp] theorem loadRpl_i (x : Reg) : (s.loadRpl x).i = s.i := rfl
@[simp] theorem loadRpl_pc (x : Reg) : (s.loadRpl x).pc = s.pc := rfl
@[simp] theorem loadRpl_stack (x : Reg) : (s.loadRpl x).stack = s.stack := rfl
@[simp] theorem loadRpl_sp (x : Reg) : (s.loadRpl x).sp = s.sp := rfl
@[simp] theorem loadRpl_rpl (x : Reg) : (s.loadRpl x).rpl = s.rpl := rfl
@[simp] theorem loadRpl_delay (x : Reg) : (s.loadRpl x).delay = s.delay := rfl
@[simp] theorem loadRpl_sound (x : Reg) : (s.loadRpl x).sound = s.sound := rfl
@[simp] theorem loadRpl_input (x : Reg) : (s.loadRpl x).input = s.input := rfl
@[simp] theorem loadRpl_mem (x : Reg) : (s.loadRpl x).mem = s.mem := rfl
@[simp] theorem loadRpl_mode (x : Reg) : (s.loadRpl x).mode = s.mode := rfl
@[simp] theorem loadRpl_grid (x : Reg) : (s.loadRpl x).grid = s.grid := rfl
@[simp] theorem loadRpl_hiresMode (x : Reg) : (s.loadRpl x).hiresMode = s.hiresMode := rfl
@[simp] theorem loadRpl_wraparound (x : Reg) : (s.loadRpl x).wraparound = s.wraparound := rfl
@[simp] theorem loadRpl_powered (x : Reg) : (s.loadRpl x).powered = s.powered := rfl
@[simp] theorem loadRpl_draw (x : Reg) : (s.loadRpl x).draw = s.draw := rfl
@[simp] theorem loadRpl_outside (x : Reg) : (s.loadRpl x).outside = s.outside := rfl
@[simp] theorem loadRpl_memRead (x : Reg) (q : Nat) : (s.loadRpl x).memRead q = s.memRead q := rfl

/-! ### skipIf -/

@[simp] theorem skipIf_v (c : Bool) : (s.skipIf c).v = s.v := by cases c <;> rfl
@[simp] theorem skipIf_i (c : Bool) : (s.skipIf c).i = s.i := by cases c <;> rfl
@[simp] theorem skipIf_pc (c : Bool) : (s.skipIf c).pc = if c then s.pc + 2#16 else s.pc := by cases c <;> rfl
@[simp] theorem skipIf_stack (c : Bool) : (s.skipIf c).stack = s.stack := by cases c <;> rfl
@[simp] theorem skipIf_sp (c : Bool) : (s.skipIf c).sp = s.sp := by cases c <;> rfl
@[simp] theorem skipIf_rpl (c : Bool) : (s.skipIf c).rpl = s.rpl := by cases c <;> rfl
@[simp] theorem skipIf_delay (c : Bool) : (s.skipIf c).delay = s.delay := by cases c <;> rfl
@[simp] theorem skipIf_sound (c : Bool) : (s.skipIf c).sound = s.sound := by cases c <;> rfl
@[simp] theorem skipIf_input (c : Bool) : (s.skipIf c).input = s.input := by cases c <;> rfl
@[simp] theorem skipIf_mem (c : Bool) : (s.skipIf c).mem = s.mem := by cases c <;> rfl
@[simp] theorem skipIf_mode (c : Bool) : (s.skipIf c).mode = s.mode := by cases c <;> rfl
@[simp] theorem skipIf_grid (c : Bool) : (s.skipIf c).grid = s.grid := by cases c <;> rfl
@[simp] theorem skipIf_hiresMode (c : Bool) : (s.skipIf c).hiresMode = s.hiresMode := by cases c <;> rfl
@[simp] theorem skipIf_wraparound (c : Bool) : (s.skipIf c).wraparound = s.wraparound := by cases c <;> rfl
@[simp] theorem skipIf_powered (c : Bool) : (s.skipIf c).powered = s.powered := by cases c <;> rfl
@[simp] theorem skipIf_draw (c : Bool) : (s.skipIf c).draw = s.draw := by cases c <;> rfl
@[simp] theorem skipIf_outside (c : Bool) : (s.skipIf c).outside = s.outside := by cases c <;> rfl
@[simp] theorem skipIf_reg (c : Bool) (q : Reg) : (s.skipIf c).reg q = s.reg q := by simp [State.reg]
@[simp] theorem skipIf_memRead (c : Bool) (q : Nat) : (s.skipIf c).memRead q = s.memRead q := by simp [State.memRead]

/-! ### logicReset -/

@[simp] theorem logicReset_i : (s.logicReset).i = s.i := by unfold State.logicReset; split <;> rfl
@[simp] theorem logicReset_pc : (s.logicReset).pc = s.pc := by unfold State.logicReset; split <;> rfl
@[simp] theorem logicReset_stack : (s.logicReset).stack = s.stack := by unfold State.logicReset; split <;> rfl
@[simp] theorem logicReset_sp : (s.logicReset).sp = s.sp := by unfold State.logicReset; split <;> rfl
@[simp] theorem logicReset_rpl : (s.logicReset).rpl = s.rpl := by unfold State.logicReset; split <;> rfl
@[simp] theorem logicReset_delay : (s.logicReset).delay = s.delay := by unfold State.logicReset; split <;> rfl
@[simp] theorem logicReset_sound : (s.logicReset).sound = s.sound := by unfold State.logicReset; split <;> rfl
@[simp] theorem logicReset_input : (s.logicReset).input = s.input := by unfold State.logicReset; split <;> rfl
@[simp] theorem logicReset_mem : (s.logicReset).mem = s.mem := by unfold State.logicReset; split <;> rfl
@[simp] theorem logicReset_mode : (s.logicReset).mode = s.mode := by unfold State.logicReset; split <;> rfl
@[simp] theorem logicReset_grid : (s.logicReset).grid = s.grid := by unfold State.logicReset; split <;> rfl
@[simp] theorem logicReset_hiresMode : (s.logicReset).hiresMode = s.hiresMode := by unfold State.logicReset; split <;> rfl
@[simp] theorem logicReset_wraparound : (s.logicReset).wraparound = s.wraparound := by unfold State.logicReset; split <;> rfl
@[simp] theorem logicReset_powered : (s.logicReset).powered = s.powered := by unfold State.logicReset; split <;> rfl
@[simp] theorem logicReset_draw : (s.logicReset).draw = s.draw := by unfold State.logicReset; split <;> rfl
@[simp] theorem logicReset_outside : (s.logicReset).outside = s.outside := by unfold State.logicReset; split <;> rfl
@[simp] theorem logicReset_memRead (q : Nat) : (s.logicReset).memRead q = s.memRead q := by simp [State.memRead]

/-! ### storeBytes -/

@[simp] theorem storeBytes_v (bs : List Byte) : ∀ (s : State) (a : Nat), (s.storeBytes a bs).v = s.v := by
  induction bs with
  | nil => intros; rfl
  | cons b bs ih => intro s a; exact ih (s.memWrite a b) (a + 1)

@[simp] theorem storeBytes_i (bs : List Byte) : ∀ (s : State) (a : Nat), (s.storeBytes a bs).i = s.i := by
  induction bs with
  | nil => intros; rfl
  | cons b bs ih => intro s a; exact ih (s.memWrite a b) (a + 1)

@[simp] theorem storeBytes_pc (bs : List Byte) : ∀ (s : State) (a : Nat), (s.storeBytes a bs).pc = s.pc := by
  induction bs with
  | nil => intros; rfl
  | cons b bs ih => intro s a; exact ih (s.memWrite a b) (a + 1)

@[simp] theorem storeBytes_stack (bs : List Byte) : ∀ (s : State) (a : Nat), (s.storeBytes a bs).stack = s.stack := by
  induction bs with
  | nil => intros; rfl
  | cons b bs ih => intro s a; exact ih (s.memWrite a b) (a + 1)

@[simp] theorem storeBytes_sp (bs : List Byte) : ∀ (s : State) (a : Nat), (s.storeBytes a bs).sp = s.sp := by
  induction bs with
  | nil => intros; rfl
  | cons b bs ih => intro s a; exact ih (s.memWrite a b) (a + 1)

@[simp] theorem storeBytes_rpl (bs : List Byte) : ∀ (s : State) (a : Nat), (s.storeBytes a bs).rpl = s.rpl := by
  induction bs with
  | nil => intros; rfl
  | cons b bs ih => intro s a; exact ih (s.memWrite a b) (a + 1)

@[simp] theorem storeBytes_delay (bs : List Byte) : ∀ (s : State) (a : Nat), (s.storeBytes a bs).delay = s.delay := by
  induction bs with
  | nil => intros; rfl
  | cons b bs ih => intro s a; exact ih (s.memWrite a b) (a + 1)

@[simp] theorem storeBytes_sound (bs : List Byte) : ∀ (s : State) (a : Nat), (s.storeBytes a bs).sound = s.sound := by
  induction bs with
  | nil => intros; rfl
  | cons b bs ih => intro s a; exact ih (s.memWrite a b) (a + 1)

@[simp] theorem storeBytes_input (bs : List Byte) : ∀ (s : State) (a : Nat), (s.storeBytes a bs).input = s.input := by
  induction bs with
  | nil => intros; rfl
  | cons b bs ih => intro s a; exact ih (s.memWrite a b) (a + 1)

@[simp] theorem storeBytes_mode (bs : List Byte) : ∀ (s : State) (a : Nat), (s.storeBytes a bs).mode = s.mode := by
  induction bs with
  | nil => intros; rfl
  | cons b bs ih => intro s a; exact ih (s.memWrite a b) (a + 1)

@[simp] theorem storeBytes_grid (bs : List Byte) : ∀ (s : State) (a : Nat), (s.storeBytes a bs).grid = s.grid := by
  induction bs with
  | nil => intros; rfl
  | cons b bs ih => intro s a; exact ih (s.memWrite a b) (a + 1)

@[simp] theorem storeBytes_hiresMode (bs : List Byte) : ∀ (s : State) (a : Nat), (s.storeBytes a bs).hiresMode = s.hiresMode := by
  induction bs with
  | nil => intros; rfl
  | cons b bs ih => intro s a; exact ih (s.memWrite a b) (a + 1)

@[simp] theorem storeBytes_wraparound (bs : List Byte) : ∀ (s : State) (a : Nat), (s.storeBytes a bs).wraparound = s.wraparound := by
  induction bs with
  | nil => intros; rfl
  | cons b bs ih => intro s a; exact ih (s.memWrite a b) (a + 1)

@[simp] theorem storeBytes_powered (bs : List Byte) : ∀ (s : State) (a : Nat), (s.storeBytes a bs).powered = s.powered := by
  induction bs with
  | nil => intros; rfl
  | cons b bs ih => intro s a; exact ih (s.memWrite a b) (a + 1)

@[simp] theorem storeBytes_draw (bs : List Byte) : ∀ (s : State) (a : Nat), (s.storeBytes a bs).draw = s.draw := by
  induction bs with
  | nil => intros; rfl
  | cons b bs ih => intro s a; exact ih (s.memWrite a b) (a + 1)

@[simp] theorem storeBytes_outside (bs : List Byte) : ∀ (s : State) (a : Nat), (s.storeBytes a bs).outside = s.outside := by
  induction bs with
  | nil => intros; rfl
  | cons b bs ih => intro s a; exact ih (s.memWrite a b) (a + 1)

@[simp] theorem storeBytes_reg (a : Nat) (bs : List Byte) (q : Reg) : (s.storeBytes a bs).reg q = s.reg q := by
  simp [State.reg]

/-! ### Registers -/

theorem reg_setReg (r q : Reg) (b : Byte) : (s.setReg r b).reg q = if q = r then b else s.reg q := by
  simp only [State.reg, State.setReg, Vector.getElem_set, BitVec.toNat_inj, eq_comm]

@[simp] theorem reg_setReg_same (r : Reg) (b : Byte) : (s.setReg r b).reg r = b := by simp [reg_setReg]

theorem reg_setReg_of_ne {r q : Reg} (b : Byte) (h : q ≠ r) : (s.setReg r b).reg q = s.reg q := by
  simp [reg_setReg, h]

theorem reg_setResultFlag (x q : Reg) (b f : Byte) :
    (s.setResultFlag x b f).reg q = if q = vf then f else if q = x then b else s.reg q := by
  simp only [State.setResultFlag, reg_setReg]

theorem reg_logicReset (q : Reg) :
    s.logicReset.reg q = if q = vf ∧ logicVfReset s = true then 0#8 else s.reg q := by
  unfold State.logicReset
  by_cases h : logicVfReset s = true <;> simp [h, reg_setReg]

theorem reg_loadRegs (x q : Reg) :
    (s.loadRegs x).reg q = if q.toNat ≤ x.toNat then s.memRead (s.i.toNat + q.toNat) else s.reg q := by
  simp [State.reg, State.loadRegs]

theorem reg_loadRpl (x q : Reg) :
    (s.loadRpl x).reg q = if h : q.toNat ≤ min x.toNat 7 then s.rpl[q.toNat]'(by omega) else s.reg q := by
  simp [State.reg, State.loadRpl]

theorem rpl_saveRpl (x : Reg) (k : Nat) (h : k < 8) :
    (s.saveRpl x).rpl[k] = if k ≤ min x.toNat 7 then s.v[k] else s.rpl[k] := by
  simp [State.saveRpl]

/-! ### The list of results -/

section Results
variable (o : Outside) (r : CycleResult)

@[simp] theorem returned_params : (o.returned r).params = o.params := rfl
@[simp] theorem returned_draws : (o.returned r).draws = o.draws := rfl
@[simp] theorem returned_results : (o.returned r).results = r :: o.results := rfl
@[simp] theorem returned_result : (o.returned r).result = some r := rfl
@[simp] theorem returned_completed_faults (d : Bool) : (o.returned (.completed d)).faults = o.faults := rfl
@[simp] theorem returned_faulted_faults (f : Fault) : (o.returned (.faulted f)).faults = f :: o.faults := rfl

end Results

/-- A completed cycle returned `Completed(d)` and no fault. -/
theorem Completed.result {d : Bool} {s t : State} (h : Completed d s t) :
    t.outside.result = some (.completed d) ∧ t.outside.faults = s.outside.faults := by
  rw [Outside.result, Outside.faults, h.results]
  exact ⟨rfl, rfl⟩

/-- A faulted cycle returned its fault. -/
theorem Faulted.result {f : Fault} {s t : State} (h : Faulted f s t) :
    t.outside.result = some (.faulted f) ∧ t.outside.faults = f :: s.outside.faults := by
  rw [Outside.result, Outside.faults, h.results]
  exact ⟨rfl, rfl⟩

end Sys2Proof.Machine
end

