-- ==== Sys2Proof/Laws/Memory.lean ====
section
/-! SUPPORT. Memory: a read after a write, the canonical form is kept, and equal canonical memories are equal lists. -/

namespace Sys2Proof.Machine

/-! ### The list of cells -/

theorem memLookup_memErase (m : List Host.Cell) (a b : Nat) :
    memLookup (memErase m a) b = if a = b then none else memLookup m b := by
  induction m with
  | nil => simp [memErase, memLookup]
  | cons c m ih =>
    simp only [memErase, memLookup]
    by_cases h : c.1 = a
    · rw [if_pos h, ih, h]; by_cases h2 : a = b <;> simp [h2]
    · by_cases h2 : a = b
      · subst h2; simp [h, memLookup, ih]
      · simp [h, memLookup, ih, h2]

theorem memLookup_memInsert (m : List Host.Cell) (a b : Nat) (v : Byte) :
    memLookup (memInsert m a v) b = if a = b then some v else memLookup m b := by
  induction m with
  | nil => simp [memInsert, memLookup]
  | cons c m ih =>
    simp only [memInsert]
    split
    · by_cases h2 : a = b <;> simp [memLookup, h2]
    · split
      · next h => subst h; by_cases h2 : c.1 = b <;> simp_all [memLookup]
      · next h => by_cases h2 : a = b <;> simp_all [memLookup, eq_comm]

/-- A read after a write: the written byte at its address, the old byte elsewhere. -/
theorem read_write (p : Params) (m : List Host.Cell) (a b : Nat) (v : Byte) :
    Memory.read p (Memory.write p m a v) b = if a = b then v else Memory.read p m b := by
  unfold Memory.read Memory.write
  split
  · next h => rw [memLookup_memErase]; by_cases h2 : a = b <;> simp_all
  · rw [memLookup_memInsert]; by_cases h2 : a = b <;> simp_all

/-! ### The canonical form -/

theorem memWfFrom_mono {p : Params} {m : List Host.Cell} {lo lo' : Nat} (h : memWfFrom p lo m = true)
    (hl : lo' ≤ lo) : memWfFrom p lo' m = true := by
  cases m with
  | nil => rfl
  | cons c m => simp [memWfFrom] at h ⊢; exact ⟨⟨⟨by omega, h.1.1.2⟩, h.1.2⟩, h.2⟩

theorem memErase_wfFrom {p : Params} (a : Nat) {m : List Host.Cell} :
    ∀ {lo}, memWfFrom p lo m = true → memWfFrom p lo (memErase m a) = true := by
  induction m with
  | nil => simp [memErase]
  | cons c m ih =>
    intro lo h
    simp only [memErase]
    simp only [memWfFrom, Bool.and_eq_true, decide_eq_true_eq] at h
    split
    · exact memWfFrom_mono (ih h.2) (by omega)
    · simp only [memWfFrom, Bool.and_eq_true, decide_eq_true_eq]
      exact ⟨h.1, ih h.2⟩

theorem memInsert_wfFrom {p : Params} {a : Nat} {v : Byte} (ha : a < memSize) (hv : v ≠ resetByte p a)
    {m : List Host.Cell} :
    ∀ {lo}, lo ≤ a → memWfFrom p lo m = true → memWfFrom p lo (memInsert m a v) = true := by
  induction m with
  | nil => intro lo hl _; simp [memInsert, memWfFrom, hl, ha, hv]
  | cons c m ih =>
    intro lo hl h
    simp only [memWfFrom, Bool.and_eq_true, decide_eq_true_eq] at h
    simp only [memInsert]
    split
    · simp only [memWfFrom, Bool.and_eq_true, decide_eq_true_eq]
      exact ⟨⟨⟨hl, ha⟩, hv⟩, ⟨⟨by omega, h.1.1.2⟩, h.1.2⟩, h.2⟩
    · split
      · next heq =>
        simp only [memWfFrom, Bool.and_eq_true, decide_eq_true_eq]
        exact ⟨⟨⟨hl, ha⟩, hv⟩, by rw [heq]; exact h.2⟩
      · simp only [memWfFrom, Bool.and_eq_true, decide_eq_true_eq]
        exact ⟨h.1, ih (by omega) h.2⟩

/-- Every write inside the address space keeps the canonical form. -/
theorem write_wf {p : Params} {m : List Host.Cell} {a : Nat} (v : Byte) (ha : a < memSize)
    (h : Memory.wf p m = true) : Memory.wf p (Memory.write p m a v) = true := by
  unfold Memory.write
  split
  · exact memErase_wfFrom a h
  · next hv => exact memInsert_wfFrom ha hv (Nat.zero_le _) h

theorem mask12_lt (a : Nat) : mask12 a < memSize := Nat.mod_lt _ (by decide)

theorem memWrite_wf {s : State} (a : Nat) (v : Byte) (h : Memory.wf s.outside.params s.mem = true) :
    Memory.wf (s.memWrite a v).outside.params (s.memWrite a v).mem = true := write_wf v (mask12_lt a) h

theorem storeBytes_wf (bs : List Byte) : ∀ {s : State} (a : Nat), Memory.wf s.outside.params s.mem = true →
    Memory.wf (s.storeBytes a bs).outside.params (s.storeBytes a bs).mem = true := by
  induction bs with
  | nil => intro s a h; exact h
  | cons b bs ih => intro s a h; exact ih (a + 1) (memWrite_wf a b h)

/-- Reset memory lists nothing, so it is canonical. -/
theorem reset_mem_wf : Memory.wf State.reset.outside.params State.reset.mem = true := rfl

/-! ### A canonical memory is determined by its reads -/

theorem memLookup_eq_none_of_lt {p : Params} {m : List Host.Cell} :
    ∀ {lo a}, memWfFrom p lo m = true → a < lo → memLookup m a = none := by
  induction m with
  | nil => intros; rfl
  | cons c m ih =>
    intro lo a h ha
    simp only [memWfFrom, Bool.and_eq_true, decide_eq_true_eq] at h
    have : c.1 ≠ a := by omega
    simp only [memLookup, this, if_false]
    exact ih h.2 (by omega)

theorem eq_of_read_eq {p : Params} {m : List Host.Cell} : ∀ {lo m'}, memWfFrom p lo m = true →
    memWfFrom p lo m' = true → (∀ a, a < memSize → Memory.read p m a = Memory.read p m' a) → m = m' := by
  induction m with
  | nil =>
    intro lo m' _ h' hr
    cases m' with
    | nil => rfl
    | cons c m' =>
      simp only [memWfFrom, Bool.and_eq_true, decide_eq_true_eq] at h'
      have := hr c.1 h'.1.1.2
      simp [Memory.read, memLookup] at this
      exact absurd this.symm h'.1.2
  | cons c m ih =>
    intro lo m' h h' hr
    cases m' with
    | nil =>
      simp only [memWfFrom, Bool.and_eq_true, decide_eq_true_eq] at h
      have := hr c.1 h.1.1.2
      simp [Memory.read, memLookup] at this
      exact absurd this h.1.2
    | cons d m' =>
      simp only [memWfFrom, Bool.and_eq_true, decide_eq_true_eq] at h h'
      have hcd : c.1 = d.1 := by
        rcases Nat.lt_trichotomy c.1 d.1 with hlt | heq | hlt
        · have := hr c.1 h.1.1.2
          have hn : memLookup m' c.1 = none := memLookup_eq_none_of_lt h'.2 (by omega)
          have hne : d.1 ≠ c.1 := by omega
          simp [Memory.read, memLookup, hn, hne] at this
          exact absurd this h.1.2
        · exact heq
        · have := hr d.1 h'.1.1.2
          have hn : memLookup m d.1 = none := memLookup_eq_none_of_lt h.2 (by omega)
          have hne : c.1 ≠ d.1 := by omega
          simp [Memory.read, memLookup, hn, hne] at this
          exact absurd this.symm h'.1.2
      have hv : c.2 = d.2 := by
        have := hr c.1 h.1.1.2
        simpa [Memory.read, memLookup, hcd] using this
      have hm : m = m' := by
        refine ih (lo := c.1 + 1) h.2 (by rw [hcd]; exact h'.2) ?_
        intro a ha
        have := hr a ha
        by_cases hle : a < c.1 + 1
        · have h1 := memLookup_eq_none_of_lt h.2 hle
          have h2 := memLookup_eq_none_of_lt h'.2 (by omega : a < d.1 + 1)
          simp [Memory.read, h1, h2]
        · have hne : c.1 ≠ a := by omega
          have hne' : d.1 ≠ a := by omega
          simpa [Memory.read, memLookup, hne, hne'] using this
      rw [hm, Prod.ext hcd hv]

/-! ### Reads and writes of a state -/

theorem mask12_mask12 (a : Nat) : mask12 (mask12 a) = mask12 a := Nat.mod_mod _ _

theorem memRead_memWrite (s : State) (a b : Nat) (v : Byte) :
    (s.memWrite a v).memRead b = if mask12 a = mask12 b then v else s.memRead b :=
  read_write _ _ _ _ _

/-- Bytes stored at addresses that differ read back, and every other byte is kept. -/
theorem memRead_storeBytes_of_forall_ne (bs : List Byte) : ∀ (s : State) (a b : Nat),
    (∀ k, k < bs.length → mask12 (a + k) ≠ mask12 b) → (s.storeBytes a bs).memRead b = s.memRead b := by
  induction bs with
  | nil => intros; rfl
  | cons c bs ih =>
    intro s a b h
    have h0 := h 0 (by simp)
    rw [State.storeBytes, ih _ _ _ (fun k hk => by
      have := h (k + 1) (by simpa using hk)
      rwa [show a + 1 + k = a + (k + 1) by omega])]
    rw [memRead_memWrite, if_neg (by simpa using h0)]

theorem memRead_storeBytes (bs : List Byte) (hlen : bs.length ≤ 4096) : ∀ (s : State) (a k : Nat) (hk : k < bs.length),
    (s.storeBytes a bs).memRead (a + k) = bs[k] := by
  induction bs with
  | nil => intro s a k hk; simp at hk
  | cons c bs ih =>
    intro s a k hk
    have hlen' : bs.length + 1 ≤ 4096 := by simpa using hlen
    cases k with
    | zero =>
      rw [State.storeBytes, memRead_storeBytes_of_forall_ne]
      · simp [memRead_memWrite]
      · intro j hj
        simp only [mask12, memSize]
        omega
    | succ k =>
      rw [State.storeBytes, show a + (k + 1) = a + 1 + k by omega, ih (by omega) _ _ _ (by simpa using hk)]
      simp

end Sys2Proof.Machine
end

