-- ==== Sys2Proof/Laws/Frame.lean ====
section
/-! SUPPORT. How a cycle ends, said once: what `complete` and `raise` answer, and the frame of each shared operation. -/

namespace Sys2Proof.Machine

/-- A meaning that completes on `u` answers a next state that ends a completed cycle and keeps what `u` keeps. -/
theorem complete_spec {d : Bool} {s u : State} {c : Changes} (hr : u.outside.results = s.outside.results)
    (hk : Keeps c s u) : ∃ t, complete d u = .next t ∧ Completed d s t ∧ Keeps c s t
      ∧ SameMachine { u with draw := d } t ∧ t.outside.draws = u.outside.draws :=
  ⟨_, rfl, ⟨rfl, congrArg _ hr⟩, ⟨hk.regs, hk.memory, hk.i, hk.pc, hk.stack, hk.rpl, hk.timers, hk.grid, hk.hiresMode,
    hk.draws, hk.fixed⟩, rfl, rfl⟩

/-- Every completed cycle's state keeps all fields but `Draw` and the record. -/
theorem complete_next {d : Bool} {u t : State} (h : complete d u = .next t) :
    t = { u with draw := d, outside := u.outside.returned (.completed d) } := by cases h; rfl

/-- Taking a fault keeps the Machine State and surfaces the fault. -/
theorem raise_spec (f : Fault) (s : State) : ∃ t, raise f s = .next t ∧ Faulted f s t :=
  ⟨_, rfl, rfl, rfl, rfl, rfl⟩

theorem keeps_refl (c : Changes) (s : State) : Keeps c s s := by constructor <;> simp

theorem keeps_setPc (s : State) (p : Word) : Keeps { pc := true } s (s.setPc p) := by constructor <;> simp

theorem keeps_setI (s : State) (w : Word) : Keeps { i := true } s (s.setI w) := by constructor <;> simp

theorem keeps_setReg (s : State) (x : Reg) (b : Byte) : Keeps { regs := [x] } s (s.setReg x b) := by
  constructor <;> simp
  intro r hr
  simp [reg_setReg, hr]

theorem keeps_setResultFlag (s : State) (x : Reg) (b f : Byte) : Keeps { regs := [x, vf] } s (s.setResultFlag x b f) := by
  constructor <;> simp
  intro r hr hv
  simp [reg_setResultFlag, hr, hv]

theorem keeps_setGrid (s : State) (g : Grid) : Keeps { grid := true } s { s with grid := g } := by
  constructor <;> simp [State.reg, State.memRead]

theorem keeps_setTimers (s : State) (d t : Byte) : Keeps { timers := true } s { s with delay := d, sound := t } := by
  constructor <;> simp [State.reg, State.memRead]

theorem keeps_setHires (s : State) (h : Bool) : Keeps { hiresMode := true } s { s with hiresMode := h } := by
  constructor <;> simp [State.reg, State.memRead]

/-- A skip is a write of `PC`: two more bytes when the condition holds. -/
theorem skipIf_eq_setPc (s : State) (c : Bool) : s.skipIf c = s.setPc (if c then s.pc + 2#16 else s.pc) := by
  cases c <;> rfl

/-- The addresses of a transfer at `I`, one by one. -/
theorem mem_cellsAtI {s : State} {n a : Nat} : a ∈ cellsAtI s n ↔ ∃ k, k < n ∧ mask12 (s.i.toNat + k) = a := by
  simp [cellsAtI]

/-- Bytes stored from `I` on change no other byte and no other state. -/
theorem keeps_storeBytes (s : State) (bs : List Byte) :
    Keeps { cells := cellsAtI s bs.length } s (s.storeBytes s.i.toNat bs) := by
  constructor <;> simp
  intro a ha
  apply memRead_storeBytes_of_forall_ne
  intro k hk h
  exact ha (mem_cellsAtI.2 ⟨k, hk, h⟩)

/-- What a sprite instruction writes: the grid, then `VF`. -/
theorem keeps_draw (s : State) (g : Grid) (b : Byte) :
    Keeps { regs := [vf], grid := true } s (State.setReg { s with grid := g } vf b) := by
  constructor <;> simp [State.memRead]
  intro r hr
  simp [reg_setReg, hr]
  rfl

end Sys2Proof.Machine
end

