-- ==== Sys2Proof/Laws/Grid.lean ====
section
/-! SUPPORT. What each operation of the Display Buffer does to one physical pixel. -/

namespace Sys2Proof.Machine

/-! ### One pixel -/

theorem getD_of_lt (g : Grid) {y : Nat} (h : y < 64) : g.getD y 0#128 = g[y] := by simp [Vector.getD, h]

theorem pixel_of_lt (g : Grid) (x : Nat) {y : Nat} (h : y < 64) : pixel g x y = g[y].getLsbD x := by
  rw [pixel, getD_of_lt g h]

theorem pixel_outside (g : Grid) (x y : Nat) (h : 128 ≤ x ∨ 64 ≤ y) : pixel g x y = false := by
  rcases h with h | h
  · exact BitVec.getLsbD_of_ge _ _ h
  · simp [pixel, Vector.getD, show ¬ y < 64 by omega]

/-- Two grids with the same pixels are equal. -/
theorem grid_ext {g g' : Grid} (h : ∀ x y, x < 128 → y < 64 → pixel g x y = pixel g' x y) : g = g' := by
  apply Vector.ext
  intro y hy
  apply BitVec.eq_of_getLsbD_eq
  intro x hx
  have := h x y hx hy
  rwa [pixel_of_lt _ _ hy, pixel_of_lt _ _ hy] at this

theorem pixel_toggle (g : Grid) {x y : Nat} (hx : x < 128) (hy : y < 64) (px py : Nat) :
    pixel (toggle g x y) px py = (pixel g px py ^^ decide (px = x ∧ py = y)) := by
  by_cases hpy : py < 64
  · simp only [toggle, pixel_of_lt _ _ hpy, Vector.getElem_setIfInBounds]
    by_cases h : y = py
    · subst h
      rw [getD_of_lt g hy]
      simp only [if_true, BitVec.getLsbD_xor, BitVec.getLsbD_twoPow, and_true]
      by_cases hp : px = x
      · subst hp; simp [hx]
      · have : ¬ x = px := fun h => hp h.symm
        simp [hp, this]
    · have : ¬ (px = x ∧ py = y) := fun hh => h hh.2.symm
      simp [h, this]
  · have : ¬ (px = x ∧ py = y) := by omega
    rw [pixel_outside _ _ _ (Or.inr (by omega)), pixel_outside _ _ _ (Or.inr (by omega))]
    simp [this]

@[simp] theorem pixel_clearGrid (x y : Nat) : pixel clearGrid x y = false := by
  by_cases hy : y < 64
  · rw [pixel_of_lt _ _ hy]; simp [clearGrid]
  · exact pixel_outside _ _ _ (Or.inr (by omega))

/-! ### Scrolls -/

theorem pixel_scrollRight (d : Nat) (g : Grid) {x : Nat} (hx : x < 128) (y : Nat) :
    pixel (scrollRight d g) x y = if d ≤ x then pixel g (x - d) y else false := by
  by_cases hy : y < 64
  · simp only [pixel_of_lt _ _ hy, scrollRight, Vector.getElem_map, BitVec.getLsbD_shiftLeft]
    by_cases hd : d ≤ x <;> simp [hx, hd]
  · simp [pixel_outside _ _ _ (Or.inr (Nat.le_of_not_lt hy))]

theorem pixel_scrollLeft (d : Nat) (g : Grid) (x y : Nat) :
    pixel (scrollLeft d g) x y = if x + d ≤ 127 then pixel g (x + d) y else false := by
  by_cases hy : y < 64
  · simp only [pixel_of_lt _ _ hy, scrollLeft, Vector.getElem_map, BitVec.getLsbD_ushiftRight]
    by_cases hd : x + d ≤ 127
    · rw [if_pos hd, Nat.add_comm]
    · rw [if_neg hd, Nat.add_comm]; exact BitVec.getLsbD_of_ge _ _ (by omega)
  · simp [pixel_outside _ _ _ (Or.inr (Nat.le_of_not_lt hy))]

theorem pixel_scrollDown (c : Nat) (g : Grid) (x : Nat) {y : Nat} (hy : y < 64) :
    pixel (scrollDown c g) x y = if c ≤ y then pixel g x (y - c) else false := by
  simp only [pixel_of_lt _ _ hy, scrollDown, Vector.getElem_ofFn]
  by_cases hc : c ≤ y <;> simp [hc, pixel]

theorem pixel_scrollUp (c : Nat) (g : Grid) (x : Nat) {y : Nat} (hy : y < 64) :
    pixel (scrollUp c g) x y = if y + c ≤ 63 then pixel g x (y + c) else false := by
  simp only [pixel_of_lt _ _ hy, scrollUp, Vector.getElem_ofFn]
  by_cases hc : y + c ≤ 63
  · simp [hc, pixel]
  · simp [hc, Vector.getD, show ¬ y + c < 64 by omega]

/-! ### One sprite pixel -/

/-- Whether the sprite pixel at `(x, y)` lands on a physical pixel. -/
def covers (w : View) (px py x y : Nat) : Bool :=
  match land w x y with
  | none => false
  | some t => decide ((px, py) ∈ physicalPixels w.hires t.1 t.2)

theorem land_lt {w : View} {x y : Nat} {t : Nat × Nat} (h : land w x y = some t) :
    t.1 < viewWidth w ∧ t.2 < viewHeight w := by
  have hw : 0 < viewWidth w := by unfold viewWidth; split <;> omega
  have hh : 0 < viewHeight w := by unfold viewHeight; split <;> omega
  unfold land at h
  split at h
  · cases h; exact ⟨Nat.mod_lt _ hw, Nat.mod_lt _ hh⟩
  · split at h
    · cases h
    · cases h; exact ⟨by omega, by omega⟩

theorem pixel_flip {w : View} (g : Grid) {t : Nat × Nat} (h : t.1 < viewWidth w ∧ t.2 < viewHeight w) (px py : Nat) :
    pixel (flip w.hires g t.1 t.2).1 px py
      = (pixel g px py ^^ decide ((px, py) ∈ physicalPixels w.hires t.1 t.2)) := by
  obtain ⟨hx, hy⟩ := h
  unfold viewWidth at hx
  unfold viewHeight at hy
  unfold flip physicalPixels
  split
  · next hr =>
    rw [if_pos hr] at hx hy
    simp [pixel_toggle _ hx hy, Prod.ext_iff]
  · next hr =>
    rw [if_neg hr] at hx hy
    simp only [List.foldl_cons, List.foldl_nil]
    rw [pixel_toggle _ (by omega) (by omega), pixel_toggle _ (by omega) (by omega),
      pixel_toggle _ (by omega) (by omega), pixel_toggle _ (by omega) (by omega)]
    simp only [List.mem_cons, Prod.mk.injEq, List.not_mem_nil, or_false]
    by_cases a : px = 2 * t.1 <;> by_cases b : px = 2 * t.1 + 1 <;> by_cases c : py = 2 * t.2 <;>
      by_cases d : py = 2 * t.2 + 1 <;> first | omega | simp [a, b, c, d]

/-- What one set sprite bit does to a physical pixel, whatever has been hit before. -/
theorem pixel_plot (w : View) (ch : Bool) (acc : Grid × Bool) (x y px py : Nat) :
    pixel (plot w ch acc x y).1 px py = (pixel acc.1 px py ^^ covers w px py x y) := by
  unfold plot covers
  cases h : land w x y with
  | none => simp
  | some t => exact pixel_flip acc.1 (land_lt h) px py

/-- Whether one set sprite bit hits, on a grid: a physical pixel it lands on is 1, or it is off-grid and that counts. -/
def hits (w : View) (ch : Bool) (g : Grid) (x y : Nat) : Bool :=
  match land w x y with
  | none => ch
  | some t => (physicalPixels w.hires t.1 t.2).any fun p => pixel g p.1 p.2

theorem plot_hit (w : View) (ch : Bool) (acc : Grid × Bool) (x y : Nat) :
    (plot w ch acc x y).2 = (acc.2 || hits w ch acc.1 x y) := by
  unfold plot hits
  cases land w x y <;> rfl

/-- A hit depends only on the pixels the bit lands on. -/
theorem hits_congr {w : View} {ch : Bool} {g g' : Grid} {x y : Nat}
    (h : ∀ px py, covers w px py x y = true → pixel g px py = pixel g' px py) :
    hits w ch g x y = hits w ch g' x y := by
  unfold hits
  cases hl : land w x y with
  | none => rfl
  | some t =>
    simp only [covers, hl, decide_eq_true_eq] at h
    rw [Bool.eq_iff_iff]
    simp only [List.any_eq_true]
    exact ⟨fun ⟨p, hp, hv⟩ => ⟨p, hp, by rw [← h _ _ hp]; exact hv⟩,
      fun ⟨p, hp, hv⟩ => ⟨p, hp, by rw [h _ _ hp]; exact hv⟩⟩

/-! ### Many sprite pixels -/

/-- Plot a list of sprite pixels. -/
def plotAll (w : View) (ch : Bool) (acc : Grid × Bool) (ps : List (Nat × Nat)) : Grid × Bool :=
  ps.foldl (fun acc p => plot w ch acc p.1 p.2) acc

/-- No physical pixel is covered by two of the sprite pixels. -/
def Apart (w : View) (ps : List (Nat × Nat)) : Prop :=
  ps.Pairwise fun p q => ∀ px py, covers w px py p.1 p.2 = true → covers w px py q.1 q.2 = false

theorem pixel_plotAll {w : View} {ch : Bool} (px py : Nat) : ∀ {ps : List (Nat × Nat)} (acc : Grid × Bool),
    Apart w ps → pixel (plotAll w ch acc ps).1 px py
      = (pixel acc.1 px py ^^ ps.any fun p => covers w px py p.1 p.2) := by
  intro ps
  induction ps with
  | nil => intro acc _; simp [plotAll]
  | cons p ps ih =>
    intro acc h
    obtain ⟨hp, hps⟩ := List.pairwise_cons.mp h
    have := ih (plot w ch acc p.1 p.2) hps
    rw [show plotAll w ch acc (p :: ps) = plotAll w ch (plot w ch acc p.1 p.2) ps from rfl, this, pixel_plot]
    cases hc : covers w px py p.1 p.2 with
    | false => simp [hc]
    | true =>
      have : ps.any (fun q => covers w px py q.1 q.2) = false := by
        rw [List.any_eq_false]
        intro q hq
        simp [hp q hq px py hc]
      simp [hc, this]

theorem plotAll_hit {w : View} {ch : Bool} : ∀ {ps : List (Nat × Nat)} (acc : Grid × Bool),
    Apart w ps → (plotAll w ch acc ps).2 = (acc.2 || ps.any fun p => hits w ch acc.1 p.1 p.2) := by
  intro ps
  induction ps with
  | nil => intro acc _; simp [plotAll]
  | cons p ps ih =>
    intro acc h
    obtain ⟨hp, hps⟩ := List.pairwise_cons.mp h
    rw [show plotAll w ch acc (p :: ps) = plotAll w ch (plot w ch acc p.1 p.2) ps from rfl, ih _ hps, plot_hit]
    have : ps.any (fun q => hits w ch (plot w ch acc p.1 p.2).1 q.1 q.2)
        = ps.any (fun q => hits w ch acc.1 q.1 q.2) := by
      rw [Bool.eq_iff_iff]
      simp only [List.any_eq_true]
      have key : ∀ q ∈ ps, hits w ch (plot w ch acc p.1 p.2).1 q.1 q.2 = hits w ch acc.1 q.1 q.2 := by
        intro q hq
        apply hits_congr
        intro px py hc
        rw [pixel_plot]
        cases hcp : covers w px py p.1 p.2 with
        | false => simp
        | true => rw [hp q hq px py hcp] at hc; cases hc
      exact ⟨fun ⟨q, hq, hv⟩ => ⟨q, hq, by rw [← key q hq]; exact hv⟩,
        fun ⟨q, hq, hv⟩ => ⟨q, hq, by rw [key q hq]; exact hv⟩⟩
    rw [this, List.any_cons, Bool.or_assoc]

/-- The set bits of a sprite row, as sprite pixels from left to right. -/
def rowPixels {n : Nat} (x y : Nat) (row : BitVec n) : List (Nat × Nat) :=
  ((List.range n).filter fun c => row.getMsbD c).map fun c => (x + c, y)

theorem drawRow_eq_plotAll {n : Nat} (w : View) (ch : Bool) (x y : Nat) (row : BitVec n) (g : Grid) :
    drawRow w ch x y row g = plotAll w ch (g, false) (rowPixels x y row) := by
  unfold drawRow plotAll rowPixels
  rw [List.foldl_map, List.foldl_filter]

/-- Where a sprite pixel lands decides which physical pixels it covers: the block of its logical pixel. -/
theorem covers_iff (w : View) (x y : Nat) {px py : Nat} (hx : px < 128) (hy : py < 64) :
    covers w px py x y = true ↔ Covers w x y px py := by
  have hm : ∀ tx ty, (px, py) ∈ physicalPixels w.hires tx ty ↔ px / pixelScale w = tx ∧ py / pixelScale w = ty := by
    intro tx ty
    unfold physicalPixels pixelScale
    split
    · simp
    · simp only [List.mem_cons, Prod.mk.injEq, List.not_mem_nil, or_false]; omega
  unfold covers Covers land
  cases hwr : w.wrap with
  | true => simp [hm]
  | false =>
    have hs : px / pixelScale w < viewWidth w ∧ py / pixelScale w < viewHeight w := by
      unfold pixelScale viewWidth viewHeight; split <;> omega
    by_cases h : x ≥ viewWidth w ∨ y ≥ viewHeight w
    · simp only [h, if_true, Bool.false_eq_true, if_false]
      constructor
      · intro hf; cases hf
      · rintro ⟨h1, h2⟩; omega
    · simp [h, hm]

/-! ### Whole sprites -/

/-- The set bits of a sprite's rows from row `y` down, as sprite pixels in drawing order. -/
def spritePixels {n : Nat} (x : Nat) : Nat → List (BitVec n) → List (Nat × Nat)
  | _, [] => []
  | y, row :: rows => rowPixels x y row ++ spritePixels x (y + 1) rows

theorem mem_rowPixels {n : Nat} {x y : Nat} {row : BitVec n} {p : Nat × Nat} :
    p ∈ rowPixels x y row ↔ ∃ c, c < n ∧ row.getMsbD c = true ∧ p = (x + c, y) := by
  simp only [rowPixels, List.mem_map, List.mem_filter, List.mem_range]
  exact ⟨fun ⟨c, h, e⟩ => ⟨c, h.1, h.2, e.symm⟩, fun ⟨c, h1, h2, e⟩ => ⟨c, ⟨h1, h2⟩, e.symm⟩⟩

theorem mem_spritePixels {n : Nat} {x : Nat} {p : Nat × Nat} {rows : List (BitVec n)} : ∀ {y},
    p ∈ spritePixels x y rows ↔
      ∃ r c, ∃ h : r < rows.length, c < n ∧ rows[r].getMsbD c = true ∧ p = (x + c, y + r) := by
  induction rows with
  | nil => simp [spritePixels]
  | cons row rows ih =>
    intro y
    rw [spritePixels, List.mem_append, mem_rowPixels, ih]
    constructor
    · rintro (⟨c, h1, h2, h3⟩ | ⟨r, c, h, h1, h2, h3⟩)
      · exact ⟨0, c, by simp, h1, h2, h3⟩
      · exact ⟨r + 1, c, by simpa using h, h1, h2, by rw [h3, Nat.add_assoc, Nat.add_comm 1 r]⟩
    · rintro ⟨r, c, h, h1, h2, h3⟩
      cases r with
      | zero => exact Or.inl ⟨c, h1, h2, h3⟩
      | succ r => exact Or.inr ⟨r, c, by simpa using h, h1, h2, by rw [h3, Nat.add_assoc, Nat.add_comm 1 r]⟩

/-- The logical pixels of two sprite pixels that cover one physical pixel agree. -/
theorem land_eq_of_covers {w : View} {px py x y x' y' : Nat} (h : covers w px py x y = true)
    (h' : covers w px py x' y' = true) : land w x y = land w x' y' := by
  unfold covers at h h'
  cases hl : land w x y with
  | none => simp [hl] at h
  | some t =>
    cases hl' : land w x' y' with
    | none => simp [hl'] at h'
    | some t' =>
      simp only [hl, hl', decide_eq_true_eq] at h h'
      unfold physicalPixels at h h'
      congr 1
      split at h
      · next hr =>
        simp only [hr, if_true, List.mem_singleton] at h h'
        exact Prod.ext (by simpa using congrArg Prod.fst (h.symm.trans h')) (by simpa using congrArg Prod.snd (h.symm.trans h'))
      · next hr =>
        rw [if_neg hr] at h'
        simp only [List.mem_cons, Prod.mk.injEq, List.not_mem_nil, or_false] at h h'
        exact Prod.ext (by omega) (by omega)

/-- Two sprite pixels less than 32 apart in each direction land on the same logical pixel only if they are the same. -/
theorem eq_of_covers {w : View} {px py x y c r c' r' : Nat} (hc : c < 32) (hc' : c' < 32) (hr : r < 32) (hr' : r' < 32)
    (h : covers w px py (x + c) (y + r) = true) (h' : covers w px py (x + c') (y + r') = true) : c = c' ∧ r = r' := by
  have e := land_eq_of_covers h h'
  have hW : viewWidth w = 128 ∨ viewWidth w = 64 := by unfold viewWidth; split <;> simp
  have hH : viewHeight w = 64 ∨ viewHeight w = 32 := by unfold viewHeight; split <;> simp
  unfold land at e
  cases hw : w.wrap with
  | true =>
    simp only [hw, if_true, Option.some.injEq, Prod.mk.injEq] at e
    obtain ⟨e1, e2⟩ := e
    rcases hW with hW | hW <;> rcases hH with hH | hH <;> rw [hW] at e1 <;> rw [hH] at e2 <;> omega
  | false =>
    simp only [hw, Bool.false_eq_true, if_false] at e
    unfold covers land at h h'
    simp only [hw, Bool.false_eq_true, if_false] at h h'
    split at e
    · next hh => simp [hh] at h
    · next hh =>
      split at e
      · cases e
      · simp only [Option.some.injEq, Prod.mk.injEq] at e; omega

theorem pairwise_rowPixels {n : Nat} (x y : Nat) (row : BitVec n) :
    (rowPixels x y row).Pairwise fun p q => p.1 ≠ q.1 := by
  unfold rowPixels
  rw [List.pairwise_map]
  exact (List.Pairwise.filter _ List.pairwise_lt_range).imp fun h => by simp; omega

/-- The sprite pixels of at most 32 rows and 32 columns never cover one physical pixel twice. -/
theorem apart_spritePixels {n : Nat} (w : View) (x : Nat) (hn : n ≤ 32) {rows : List (BitVec n)} :
    ∀ y, rows.length ≤ 32 → Apart w (spritePixels x y rows) := by
  induction rows with
  | nil => intro y _; exact List.Pairwise.nil
  | cons row rows ih =>
    intro y hl
    simp only [List.length_cons] at hl
    refine List.pairwise_append.mpr ⟨?_, ih (y + 1) (by omega), ?_⟩
    · refine (pairwise_rowPixels x y row).imp_of_mem ?_
      intro p q hp hq hne px py h
      obtain ⟨c, hc, _, rfl⟩ := mem_rowPixels.mp hp
      obtain ⟨c', hc', _, rfl⟩ := mem_rowPixels.mp hq
      by_contra hcon
      have := eq_of_covers (r := 0) (r' := 0) (x := x) (y := y) (c := c) (c' := c') (by omega) (by omega) (by omega)
        (by omega) h (by simpa using hcon)
      exact hne (by simp [this.1])
    · intro p hp q hq px py h
      obtain ⟨c, hc, _, rfl⟩ := mem_rowPixels.mp hp
      obtain ⟨r, c', hr, hc', _, rfl⟩ := mem_spritePixels.mp hq
      by_contra hcon
      rw [Nat.add_assoc] at hcon
      have := eq_of_covers (r := 0) (r' := 1 + r) (x := x) (y := y) (c := c) (c' := c') (by omega) (by omega) (by omega)
        (by omega) h (by simpa using hcon)
      omega

theorem plotAll_fst (w : View) (ch : Bool) : ∀ (ps : List (Nat × Nat)) (g : Grid) (b b' : Bool),
    (plotAll w ch (g, b) ps).1 = (plotAll w ch (g, b') ps).1 := by
  intro ps
  induction ps with
  | nil => intros; rfl
  | cons p ps ih =>
    intro g b b'
    have e : (plot w ch (g, b) p.1 p.2).1 = (plot w ch (g, b') p.1 p.2).1 := by
      unfold plot; cases land w p.1 p.2 <;> rfl
    show (plotAll w ch (plot w ch (g, b) p.1 p.2) ps).1 = (plotAll w ch (plot w ch (g, b') p.1 p.2) ps).1
    rw [show plot w ch (g, b) p.1 p.2 = ((plot w ch (g, b) p.1 p.2).1, (plot w ch (g, b) p.1 p.2).2) from rfl, e]
    exact ih _ _ _

theorem plotAll_append (w : View) (ch : Bool) (acc : Grid × Bool) (ps qs : List (Nat × Nat)) :
    plotAll w ch acc (ps ++ qs) = plotAll w ch (plotAll w ch acc ps) qs := by
  simp [plotAll, List.foldl_append]

theorem drawRows8_grid (w : View) (x : Nat) : ∀ (bytes : List Byte) (y : Nat) (g : Grid),
    (drawRows8 w x y bytes g).1 = (plotAll w false (g, false) (spritePixels x y bytes)).1 := by
  intro bytes
  induction bytes with
  | nil => intros; rfl
  | cons b bs ih =>
    intro y g
    simp only [drawRows8, spritePixels, plotAll_append, drawRow_eq_plotAll, ih]
    exact plotAll_fst w false _ _ _ _

theorem drawRows16_grid (w : View) (x : Nat) : ∀ (rows : List Word) (y : Nat) (g : Grid),
    (drawRows16 w x y rows g).1 = (plotAll w true (g, false) (spritePixels x y rows)).1 := by
  intro rows
  induction rows with
  | nil => intros; rfl
  | cons b bs ih =>
    intro y g
    simp only [drawRows16, spritePixels, plotAll_append, drawRow_eq_plotAll, ih]
    exact plotAll_fst w true _ _ _ _

/-- What an 8-wide sprite does to a physical pixel. -/
theorem pixel_drawRows8 (w : View) (x y : Nat) (bytes : List Byte) (h : bytes.length ≤ 32) (g : Grid) (px py : Nat) :
    pixel (drawRows8 w x y bytes g).1 px py
      = (pixel g px py ^^ (spritePixels x y bytes).any fun p => covers w px py p.1 p.2) := by
  rw [drawRows8_grid, pixel_plotAll _ _ _ (apart_spritePixels w x (by omega) y h)]

/-- What a big sprite does to a physical pixel. -/
theorem pixel_drawRows16 (w : View) (x y : Nat) (rows : List Word) (h : rows.length ≤ 32) (g : Grid) (px py : Nat) :
    pixel (drawRows16 w x y rows g).1 px py
      = (pixel g px py ^^ (spritePixels x y rows).any fun p => covers w px py p.1 p.2) := by
  rw [drawRows16_grid, pixel_plotAll _ _ _ (apart_spritePixels w x (by omega) y h)]

/-- Whether a row hits does not depend on the rows drawn above it. -/
theorem row_hits_below {n : Nat} {w : View} {ch : Bool} {x y : Nat} (hn : n ≤ 32) {row : BitVec n}
    {rows : List (BitVec n)} (hl : rows.length + 1 ≤ 32) (g : Grid) {p : Nat × Nat}
    (hp : p ∈ spritePixels x (y + 1) rows) :
    hits w ch (plotAll w ch (g, false) (rowPixels x y row)).1 p.1 p.2 = hits w ch g p.1 p.2 := by
  have ha := apart_spritePixels w x hn (rows := row :: rows) y (by simpa using hl)
  have hpw := List.pairwise_append.mp ha
  apply hits_congr
  intro px py hc
  rw [pixel_plotAll px py _ hpw.1]
  have : ((rowPixels x y row).any fun q => covers w px py q.1 q.2) = false := by
    rw [List.any_eq_false]
    intro q hq hcq
    rw [hpw.2.2 q hq p hp px py hcq] at hc
    cases hc
  simp [this]

/-- The hit of an 8-wide sprite, read on the grid before it. -/
theorem drawRows8_hit (w : View) (x : Nat) : ∀ (bytes : List Byte) (y : Nat) (g : Grid), bytes.length ≤ 32 →
    (drawRows8 w x y bytes g).2 = (spritePixels x y bytes).any fun p => hits w false g p.1 p.2 := by
  intro bytes
  induction bytes with
  | nil => intros; rfl
  | cons b bs ih =>
    intro y g h
    simp only [List.length_cons] at h
    have ha := List.pairwise_append.mp
      (apart_spritePixels w x (n := 8) (by omega) (rows := b :: bs) y (by simpa using h))
    simp only [drawRows8, spritePixels, List.any_append]
    rw [ih _ _ (by omega), drawRow_eq_plotAll, plotAll_hit _ ha.1, Bool.false_or]
    congr 1
    rw [Bool.eq_iff_iff, List.any_eq_true, List.any_eq_true]
    exact ⟨fun ⟨p, hp, hh⟩ => ⟨p, hp, by rwa [row_hits_below (by omega) (by omega) g hp] at hh⟩,
      fun ⟨p, hp, hh⟩ => ⟨p, hp, by rwa [row_hits_below (by omega) (by omega) g hp]⟩⟩

theorem toNat_add_ite (b : Bool) (n : Nat) : b.toNat + n = n + if b = true then 1 else 0 := by
  cases b
  · exact Nat.zero_add n
  · exact Nat.add_comm 1 n

/-- The number of rows of a big sprite that hit, each read on the grid before the sprite. -/
theorem drawRows16_count (w : View) (x : Nat) : ∀ (rows : List Word) (y : Nat) (g : Grid), rows.length ≤ 32 →
    (drawRows16 w x y rows g).2
      = (rows.zipIdx y).countP fun (row, y) => (rowPixels x y row).any fun p => hits w true g p.1 p.2 := by
  have key : ∀ (rows : List Word) (y : Nat) (g g' : Grid), rows.length ≤ 32 →
      (∀ p ∈ spritePixels x y rows, hits w true g p.1 p.2 = hits w true g' p.1 p.2) →
      (drawRows16 w x y rows g).2 = (drawRows16 w x y rows g').2 := by
    intro rows
    induction rows with
    | nil => intros; rfl
    | cons b bs ih =>
      intro y g g' h he
      simp only [List.length_cons] at h
      have ha := List.pairwise_append.mp
        (apart_spritePixels w x (n := 16) (by omega) (rows := b :: bs) y (by simpa using h))
      simp only [drawRows16, drawRow_eq_plotAll]
      rw [plotAll_hit _ ha.1, plotAll_hit _ ha.1]
      congr 1
      · congr 2
        rw [Bool.eq_iff_iff, List.any_eq_true, List.any_eq_true]
        have hm : ∀ p ∈ rowPixels x y b, hits w true g p.1 p.2 = hits w true g' p.1 p.2 :=
          fun p hp => he p (List.mem_append_left _ hp)
        exact ⟨fun ⟨p, hp, hh⟩ => ⟨p, hp, by rwa [hm p hp] at hh⟩, fun ⟨p, hp, hh⟩ => ⟨p, hp, by rwa [hm p hp]⟩⟩
      · apply ih _ _ _ (by omega)
        intro p hp
        rw [row_hits_below (by omega) (by omega) g hp, row_hits_below (by omega) (by omega) g' hp]
        exact he p (List.mem_append_right _ hp)
  intro rows
  induction rows with
  | nil => intros; rfl
  | cons b bs ih =>
    intro y g h
    simp only [List.length_cons] at h
    have ha := List.pairwise_append.mp
      (apart_spritePixels w x (n := 16) (by omega) (rows := b :: bs) y (by simpa using h))
    rw [List.zipIdx_cons, List.countP_cons, ← ih (y + 1) g (by omega)]
    simp only [drawRows16, drawRow_eq_plotAll]
    rw [plotAll_hit _ ha.1, Bool.false_or,
      key bs (y + 1) _ g (by omega) fun p hp => row_hits_below (by omega) (by omega) g hp]
    exact toNat_add_ite _ _

/-! ### Hits in the words of the statements -/

theorem lt_of_pixel {g : Grid} {x y : Nat} (h : pixel g x y = true) : x < 128 ∧ y < 64 := by
  by_contra hc
  rw [pixel_outside _ _ _ (by omega)] at h
  cases h

theorem offGrid_iff (w : View) (x y : Nat) : OffGrid w x y ↔ land w x y = none := by
  unfold OffGrid land
  cases w.wrap <;> simp
  omega

/-- A set bit hits exactly when it covers a physical pixel that is 1, or is off-grid where that counts. -/
theorem hits_iff (w : View) (ch : Bool) (g : Grid) (x y : Nat) : hits w ch g x y = true ↔
    ((∃ px py, px < 128 ∧ py < 64 ∧ pixel g px py = true ∧ Covers w x y px py) ∨ (ch = true ∧ OffGrid w x y)) := by
  have hc : ∀ px py, pixel g px py = true → (covers w px py x y = true ↔ Covers w x y px py) :=
    fun px py h => covers_iff w x y (lt_of_pixel h).1 (lt_of_pixel h).2
  rw [offGrid_iff]
  cases hl : land w x y with
  | none =>
    simp only [hits, hl, and_true]
    refine ⟨Or.inr, ?_⟩
    rintro (⟨px, py, -, -, h3, h4⟩ | h)
    · rw [← hc _ _ h3] at h4
      simp [covers, hl] at h4
    · exact h
  | some t =>
    simp only [hits, hl, List.any_eq_true]
    constructor
    · rintro ⟨p, hp, hv⟩
      exact Or.inl ⟨p.1, p.2, (lt_of_pixel hv).1, (lt_of_pixel hv).2, hv, (hc _ _ hv).1 (by simpa [covers, hl] using hp)⟩
    · rintro (⟨px, py, -, -, h3, h4⟩ | h)
      · rw [← hc _ _ h3] at h4
        simp only [covers, hl, decide_eq_true_eq] at h4
        exact ⟨_, h4, h3⟩
      · simp at h

end Sys2Proof.Machine
end

