-- ==== Sys2Proof/Laws/PerInstr.lean ====
section
/-! SUPPORT. A statement made per instruction: the word of an instruction has the bits that its row of
spec/opcode_table.json fixes. -/

namespace Sys2Proof.Laws.TableRow

/-- A field the table fixes: bits hi..lo hold `value`. -/
structure Fixed where
  hi : Nat
  lo : Nat
  value : Nat
  deriving DecidableEq, Repr

/-- The fixed fields of each row of spec/opcode_table.json, written out from the table. -/
def fixed : Instr → List Fixed
  | .cls _ => [⟨7, 0, 224⟩, ⟨15, 12, 0⟩]
  | .ret _ => [⟨7, 0, 238⟩, ⟨15, 12, 0⟩]
  | .scd _ _ => [⟨7, 4, 12⟩, ⟨15, 12, 0⟩]
  | .scu _ _ => [⟨7, 4, 13⟩, ⟨15, 12, 0⟩]
  | .scr _ => [⟨7, 0, 251⟩, ⟨15, 12, 0⟩]
  | .scl _ => [⟨7, 0, 252⟩, ⟨15, 12, 0⟩]
  | .low _ => [⟨7, 0, 254⟩, ⟨15, 12, 0⟩]
  | .high _ => [⟨7, 0, 255⟩, ⟨15, 12, 0⟩]
  | .retry0 _ => [⟨15, 12, 0⟩]
  | .jp _ => [⟨15, 12, 1⟩]
  | .call _ => [⟨15, 12, 2⟩]
  | .seImm _ _ => [⟨15, 12, 3⟩]
  | .sneImm _ _ => [⟨15, 12, 4⟩]
  | .seReg _ _ => [⟨3, 0, 0⟩, ⟨15, 12, 5⟩]
  | .illegal5 _ _ _ => [⟨15, 12, 5⟩]
  | .ldImm _ _ => [⟨15, 12, 6⟩]
  | .addImm _ _ => [⟨15, 12, 7⟩]
  | .ldReg _ _ => [⟨3, 0, 0⟩, ⟨15, 12, 8⟩]
  | .orReg _ _ => [⟨3, 0, 1⟩, ⟨15, 12, 8⟩]
  | .andReg _ _ => [⟨3, 0, 2⟩, ⟨15, 12, 8⟩]
  | .xorReg _ _ => [⟨3, 0, 3⟩, ⟨15, 12, 8⟩]
  | .addReg _ _ => [⟨3, 0, 4⟩, ⟨15, 12, 8⟩]
  | .sub _ _ => [⟨3, 0, 5⟩, ⟨15, 12, 8⟩]
  | .shr _ _ => [⟨3, 0, 6⟩, ⟨15, 12, 8⟩]
  | .subn _ _ => [⟨3, 0, 7⟩, ⟨15, 12, 8⟩]
  | .shl _ _ => [⟨3, 0, 14⟩, ⟨15, 12, 8⟩]
  | .illegal8XY8 _ _ => [⟨3, 0, 8⟩, ⟨15, 12, 8⟩]
  | .illegal8XY9 _ _ => [⟨3, 0, 9⟩, ⟨15, 12, 8⟩]
  | .illegal8XYA _ _ => [⟨3, 0, 10⟩, ⟨15, 12, 8⟩]
  | .illegal8XYB _ _ => [⟨3, 0, 11⟩, ⟨15, 12, 8⟩]
  | .illegal8XYC _ _ => [⟨3, 0, 12⟩, ⟨15, 12, 8⟩]
  | .illegal8XYD _ _ => [⟨3, 0, 13⟩, ⟨15, 12, 8⟩]
  | .illegal8XYF _ _ => [⟨3, 0, 15⟩, ⟨15, 12, 8⟩]
  | .sneReg _ _ => [⟨3, 0, 0⟩, ⟨15, 12, 9⟩]
  | .illegal9 _ _ _ => [⟨15, 12, 9⟩]
  | .ldI _ => [⟨15, 12, 10⟩]
  | .jpV0 _ => [⟨15, 12, 11⟩]
  | .rnd _ _ => [⟨15, 12, 12⟩]
  | .drw _ _ _ => [⟨15, 12, 13⟩]
  | .skp _ => [⟨7, 0, 158⟩, ⟨15, 12, 14⟩]
  | .sknp _ => [⟨7, 0, 161⟩, ⟨15, 12, 14⟩]
  | .illegalE _ _ => [⟨15, 12, 14⟩]
  | .ldVxDt _ => [⟨7, 0, 7⟩, ⟨15, 12, 15⟩]
  | .ldVxK _ => [⟨7, 0, 10⟩, ⟨15, 12, 15⟩]
  | .ldDt _ => [⟨7, 0, 21⟩, ⟨15, 12, 15⟩]
  | .ldSt _ => [⟨7, 0, 24⟩, ⟨15, 12, 15⟩]
  | .addI _ => [⟨7, 0, 30⟩, ⟨15, 12, 15⟩]
  | .ldF _ => [⟨7, 0, 41⟩, ⟨15, 12, 15⟩]
  | .ldHf _ => [⟨7, 0, 48⟩, ⟨15, 12, 15⟩]
  | .ldB _ => [⟨7, 0, 51⟩, ⟨15, 12, 15⟩]
  | .ldMemVx _ => [⟨7, 0, 85⟩, ⟨15, 12, 15⟩]
  | .ldVxMem _ => [⟨7, 0, 101⟩, ⟨15, 12, 15⟩]
  | .ldR _ => [⟨7, 0, 117⟩, ⟨15, 12, 15⟩]
  | .ldVxR _ => [⟨7, 0, 133⟩, ⟨15, 12, 15⟩]
  | .illegalF _ _ => [⟨15, 12, 15⟩]

/-- Every fixed field of the instruction's row stands in its word. -/
def Statement (i : Instr) : Prop :=
  ∀ f ∈ fixed i, (encode i).toNat / 2 ^ f.lo % 2 ^ (f.hi + 1 - f.lo) = f.value

/-- A list of fixed fields stands in a word. -/
def Holds (w : Word) (l : List Fixed) : Prop := ∀ f ∈ l, w.toNat / 2 ^ f.lo % 2 ^ (f.hi + 1 - f.lo) = f.value

theorem top_and_byte (t x : Nibble) (nn : Byte) :
    Holds (nibblesByte t x nn) [⟨7, 0, nn.toNat⟩, ⟨15, 12, t.toNat⟩] := by
  simp only [Holds, List.forall_mem_cons, nibblesByte_toNat]
  exact ⟨by omega, by omega, by simp⟩

theorem top_of_byte (t x : Nibble) (nn : Byte) : Holds (nibblesByte t x nn) [⟨15, 12, t.toNat⟩] := by
  simp only [Holds, List.forall_mem_cons, nibblesByte_toNat]
  exact ⟨by omega, by simp⟩

theorem top_of_addr (t : Nibble) (nnn : Addr) : Holds (nibbleAddr t nnn) [⟨15, 12, t.toNat⟩] := by
  simp only [Holds, List.forall_mem_cons, nibbleAddr_toNat]
  exact ⟨by omega, by simp⟩

theorem top_of_nibbles (t x y n : Nibble) : Holds (nibbles t x y n) [⟨15, 12, t.toNat⟩] := by
  simp only [Holds, List.forall_mem_cons, nibbles_toNat]
  exact ⟨by omega, by simp⟩

theorem top_and_low (t x y n : Nibble) : Holds (nibbles t x y n) [⟨3, 0, n.toNat⟩, ⟨15, 12, t.toNat⟩] := by
  simp only [Holds, List.forall_mem_cons, nibbles_toNat]
  exact ⟨by omega, by omega, by simp⟩

theorem top_and_middle (t x y n : Nibble) : Holds (nibbles t x y n) [⟨7, 4, y.toNat⟩, ⟨15, 12, t.toNat⟩] := by
  simp only [Holds, List.forall_mem_cons, nibbles_toNat]
  exact ⟨by omega, by omega, by simp⟩

theorem cls (u : Nibble) : Statement (.cls u) := top_and_byte 0x0#4 u 0xE0#8
theorem ret (u : Nibble) : Statement (.ret u) := top_and_byte 0x0#4 u 0xEE#8
theorem scd (u : Nibble) (n : Nibble) : Statement (.scd u n) := top_and_middle 0x0#4 u 0xC#4 n
theorem scu (u : Nibble) (n : Nibble) : Statement (.scu u n) := top_and_middle 0x0#4 u 0xD#4 n
theorem scr (u : Nibble) : Statement (.scr u) := top_and_byte 0x0#4 u 0xFB#8
theorem scl (u : Nibble) : Statement (.scl u) := top_and_byte 0x0#4 u 0xFC#8
theorem low (u : Nibble) : Statement (.low u) := top_and_byte 0x0#4 u 0xFE#8
theorem high (u : Nibble) : Statement (.high u) := top_and_byte 0x0#4 u 0xFF#8
theorem retry0 (nnn : Addr) : Statement (.retry0 nnn) := top_of_addr 0x0#4 nnn
theorem jp (nnn : Addr) : Statement (.jp nnn) := top_of_addr 0x1#4 nnn
theorem call (nnn : Addr) : Statement (.call nnn) := top_of_addr 0x2#4 nnn
theorem seImm (x : Nibble) (nn : Byte) : Statement (.seImm x nn) := top_of_byte 0x3#4 x nn
theorem sneImm (x : Nibble) (nn : Byte) : Statement (.sneImm x nn) := top_of_byte 0x4#4 x nn
theorem seReg (x : Nibble) (y : Nibble) : Statement (.seReg x y) := top_and_low 0x5#4 x y 0x0#4
theorem illegal5 (x : Nibble) (y : Nibble) (n : Nibble) : Statement (.illegal5 x y n) := top_of_nibbles 0x5#4 x y n
theorem ldImm (x : Nibble) (nn : Byte) : Statement (.ldImm x nn) := top_of_byte 0x6#4 x nn
theorem addImm (x : Nibble) (nn : Byte) : Statement (.addImm x nn) := top_of_byte 0x7#4 x nn
theorem ldReg (x : Nibble) (y : Nibble) : Statement (.ldReg x y) := top_and_low 0x8#4 x y 0x0#4
theorem orReg (x : Nibble) (y : Nibble) : Statement (.orReg x y) := top_and_low 0x8#4 x y 0x1#4
theorem andReg (x : Nibble) (y : Nibble) : Statement (.andReg x y) := top_and_low 0x8#4 x y 0x2#4
theorem xorReg (x : Nibble) (y : Nibble) : Statement (.xorReg x y) := top_and_low 0x8#4 x y 0x3#4
theorem addReg (x : Nibble) (y : Nibble) : Statement (.addReg x y) := top_and_low 0x8#4 x y 0x4#4
theorem sub (x : Nibble) (y : Nibble) : Statement (.sub x y) := top_and_low 0x8#4 x y 0x5#4
theorem shr (x : Nibble) (y : Nibble) : Statement (.shr x y) := top_and_low 0x8#4 x y 0x6#4
theorem subn (x : Nibble) (y : Nibble) : Statement (.subn x y) := top_and_low 0x8#4 x y 0x7#4
theorem shl (x : Nibble) (y : Nibble) : Statement (.shl x y) := top_and_low 0x8#4 x y 0xE#4
theorem illegal8XY8 (x : Nibble) (y : Nibble) : Statement (.illegal8XY8 x y) := top_and_low 0x8#4 x y 0x8#4
theorem illegal8XY9 (x : Nibble) (y : Nibble) : Statement (.illegal8XY9 x y) := top_and_low 0x8#4 x y 0x9#4
theorem illegal8XYA (x : Nibble) (y : Nibble) : Statement (.illegal8XYA x y) := top_and_low 0x8#4 x y 0xA#4
theorem illegal8XYB (x : Nibble) (y : Nibble) : Statement (.illegal8XYB x y) := top_and_low 0x8#4 x y 0xB#4
theorem illegal8XYC (x : Nibble) (y : Nibble) : Statement (.illegal8XYC x y) := top_and_low 0x8#4 x y 0xC#4
theorem illegal8XYD (x : Nibble) (y : Nibble) : Statement (.illegal8XYD x y) := top_and_low 0x8#4 x y 0xD#4
theorem illegal8XYF (x : Nibble) (y : Nibble) : Statement (.illegal8XYF x y) := top_and_low 0x8#4 x y 0xF#4
theorem sneReg (x : Nibble) (y : Nibble) : Statement (.sneReg x y) := top_and_low 0x9#4 x y 0x0#4
theorem illegal9 (x : Nibble) (y : Nibble) (n : Nibble) : Statement (.illegal9 x y n) := top_of_nibbles 0x9#4 x y n
theorem ldI (nnn : Addr) : Statement (.ldI nnn) := top_of_addr 0xA#4 nnn
theorem jpV0 (nnn : Addr) : Statement (.jpV0 nnn) := top_of_addr 0xB#4 nnn
theorem rnd (x : Nibble) (nn : Byte) : Statement (.rnd x nn) := top_of_byte 0xC#4 x nn
theorem drw (x : Nibble) (y : Nibble) (n : Nibble) : Statement (.drw x y n) := top_of_nibbles 0xD#4 x y n
theorem skp (x : Nibble) : Statement (.skp x) := top_and_byte 0xE#4 x 0x9E#8
theorem sknp (x : Nibble) : Statement (.sknp x) := top_and_byte 0xE#4 x 0xA1#8
theorem illegalE (x : Nibble) (nn : Byte) : Statement (.illegalE x nn) := top_of_byte 0xE#4 x nn
theorem ldVxDt (x : Nibble) : Statement (.ldVxDt x) := top_and_byte 0xF#4 x 0x07#8
theorem ldVxK (x : Nibble) : Statement (.ldVxK x) := top_and_byte 0xF#4 x 0x0A#8
theorem ldDt (x : Nibble) : Statement (.ldDt x) := top_and_byte 0xF#4 x 0x15#8
theorem ldSt (x : Nibble) : Statement (.ldSt x) := top_and_byte 0xF#4 x 0x18#8
theorem addI (x : Nibble) : Statement (.addI x) := top_and_byte 0xF#4 x 0x1E#8
theorem ldF (x : Nibble) : Statement (.ldF x) := top_and_byte 0xF#4 x 0x29#8
theorem ldHf (x : Nibble) : Statement (.ldHf x) := top_and_byte 0xF#4 x 0x30#8
theorem ldB (x : Nibble) : Statement (.ldB x) := top_and_byte 0xF#4 x 0x33#8
theorem ldMemVx (x : Nibble) : Statement (.ldMemVx x) := top_and_byte 0xF#4 x 0x55#8
theorem ldVxMem (x : Nibble) : Statement (.ldVxMem x) := top_and_byte 0xF#4 x 0x65#8
theorem ldR (x : Nibble) : Statement (.ldR x) := top_and_byte 0xF#4 x 0x75#8
theorem ldVxR (x : Nibble) : Statement (.ldVxR x) := top_and_byte 0xF#4 x 0x85#8
theorem illegalF (x : Nibble) (nn : Byte) : Statement (.illegalF x nn) := top_of_byte 0xF#4 x nn

end Sys2Proof.Laws.TableRow
end

