-- ==== Sys2Proof/Laws/Run.lean ====
section
/-! SUPPORT. Runs: what a cycle returns, and how a run of host transactions is put together. -/

namespace Sys2Proof.Machine

/-- Every execution answers a next state whose list of results has exactly one new entry: the completion with the value
of `Draw`, or a cycle fault, which leaves `Draw` as it was. -/
theorem exec_returns (i : Instr) (s : State) : ∃ t r, exec i s = .next t ∧ t.outside.results = r :: s.outside.results
    ∧ (r = .completed t.draw ∨ ∃ f, r = .faulted f ∧ isCycleFault f = true ∧ t.draw = s.draw) := by
  have completes : ∀ (d : Bool) (u : State), u.outside.results = s.outside.results →
      ∃ t r, complete d u = .next t ∧ t.outside.results = r :: s.outside.results
        ∧ (r = .completed t.draw ∨ ∃ f, r = .faulted f ∧ isCycleFault f = true ∧ t.draw = s.draw) :=
    fun d u h => ⟨_, _, rfl, congrArg _ h, Or.inl rfl⟩
  have faults : ∀ f, isCycleFault f = true →
      ∃ t r, raise f s = .next t ∧ t.outside.results = r :: s.outside.results
        ∧ (r = .completed t.draw ∨ ∃ f, r = .faulted f ∧ isCycleFault f = true ∧ t.draw = s.draw) :=
    fun f h => ⟨_, _, rfl, rfl, Or.inr ⟨f, rfl, h, rfl⟩⟩
  cases i
  case ret u =>
    simp only [exec, execRet]
    split
    · exact faults _ rfl
    · exact completes _ _ (by simp)
  case call nnn =>
    simp only [exec, execCall]
    split
    · exact faults _ rfl
    · exact completes _ _ (by simp)
  case drw x y n =>
    simp only [exec, execDrw]
    split <;> exact completes _ _ (by simp)
  case ldVxK x =>
    simp only [exec, execLdVxK]
    split <;> exact completes _ _ (by simp)
  case illegal5 | illegal8XY8 | illegal8XY9 | illegal8XYA | illegal8XYB | illegal8XYC | illegal8XYD | illegal8XYF
      | illegal9 | illegalE | illegalF => exact faults _ rfl
  all_goals exact completes _ _ (by simp)

/-- What one transaction leaves of the state of a run: its next state, or the same state where it is rejected. -/
def afterTransaction (tr : Transaction) (s : State) : State :=
  match transact tr s with
  | .next t => t
  | .fault _ => s
  | .refused _ => s

theorem hostRun_cons (tr : Transaction) (run : List Transaction) (s : State) :
    hostRun (tr :: run) s = hostRun run (afterTransaction tr s) := by
  simp only [hostRun, afterTransaction]
  cases transact tr s <;> rfl

/-- A run followed by a run. -/
theorem hostRun_append (run more : List Transaction) (s : State) :
    hostRun (run ++ more) s = hostRun more (hostRun run s) := by
  induction run generalizing s with
  | nil => rfl
  | cons tr run ih => rw [List.cons_append, hostRun_cons, hostRun_cons, ih]

/-- A transaction adds to the list of results: nothing, or the one result of its cycle. -/
theorem afterTransaction_results (tr : Transaction) (s : State) :
    (afterTransaction tr s).outside.results = s.outside.results
    ∨ (tr = .cycle ∧ ∃ r, (afterTransaction tr s).outside.results = r :: s.outside.results) := by
  cases tr with
  | cycle =>
    by_cases hp : s.powered = true
    · obtain ⟨t, r, h, hr, -⟩ := exec_returns (decode s.outside.params.scrollUpEnabled s.fetch) s.advance
      exact Or.inr ⟨rfl, r, by simp [afterTransaction, transact, step, hp, h, hr]⟩
    · exact Or.inl (by simp [afterTransaction, transact, step, hp])
  | powerAndLoad rom mode =>
    simp only [afterTransaction, transact, powerAndLoad]
    by_cases h : rom.length > maxRom
    · simp [h]
    · simp [h, powerOn]
  | setInput key pressed =>
    simp only [afterTransaction, transact, setInput]
    by_cases h : key < 16 <;> simp [h]
  | decrementTimers => exact Or.inl rfl
  | readSnapshot => exact Or.inl rfl
  | restore snapshot =>
    simp only [afterTransaction, transact, restore]
    by_cases h : snapshot.outside.params = s.outside.params <;> simp [h]

end Sys2Proof.Machine
end

