-- ==== Sys2Proof/Tests/Slice0.lean ====
section
/-! SUPPORT. The model's own tests: well-formedness, decoding, one step for each instruction, and a witness for the
hypotheses of every statement. The words of the decode tests are written out from the patterns of spec/30_encoding.md R65;
the expected values of the step tests are those of spec/95_test_vectors.md unless a comment names a rule. -/

namespace Sys2Proof.Tests

open Sys2Proof.Machine

set_option Elab.async false

/-! ### Helpers -/

/-- The state after reset, in a mode. -/
def start (m : Mode) : State := { State.reset with mode := m }

/-- The next state, if there is one. -/
def nextOf : Host.Outcome State Fault Refusal → Option State
  | .next s => some s
  | .fault _ => none
  | .refused _ => none

/-- One step on the word `w` placed at `PC`. -/
def stepOn (s : State) (w : Nat) : Option State := nextOf (step (s.withFetchWord 16 w))

/-- Set some registers. -/
def regs (s : State) (vs : List (Reg × Byte)) : State := vs.foldl (fun s p => s.setReg p.1 p.2) s

/-- What one step leaves of a state, as a test reads it. -/
def seen {α : Type} (s : State) (w : Nat) (f : State → α) : Option α := (stepOn s w).map f

/-- Set some key latches. -/
def keys (s : State) (ks : List Nat) : State :=
  { s with input := ks.foldl (fun v k => v.setIfInBounds k true) s.input }

/-- A grid with these physical pixels set. -/
def gridOf (ps : List (Nat × Nat)) : Grid := ps.foldl (fun g p => toggle g p.1 p.2) clearGrid

/-- A state that draws from `I = 0x300`: these sprite bytes there, `V0` and `V1` the coordinates. -/
def drawing (hires : Bool) (x y : Byte) (bytes : List Byte) : State :=
  { (regs (start .cosmacVIP) [(0x0#4, x), (0x1#4, y)]).storeBytes 0x300 bytes with hiresMode := hires, i := 0x300#16 }

/-! ### Well-formedness: each check refuses an ill-formed term -/

theorem test_wf_scu_needs_the_parameter : (Instr.scu 0#4 4#4).wf false = false ∧ (Instr.scu 0#4 4#4).wf true = true := by
  decide
theorem test_wf_retry0_refuses_cls : (Instr.retry0 0x1E0#12).wf false = false := by decide
theorem test_wf_retry0_refuses_scd : (Instr.retry0 0x0C7#12).wf false = false := by decide
theorem test_wf_retry0_refuses_scu : (Instr.retry0 0x0D4#12).wf true = false ∧ (Instr.retry0 0x0D4#12).wf false = true := by
  decide
theorem test_wf_illegal5_refuses_zero : (Instr.illegal5 1#4 2#4 0#4).wf false = false := by decide
theorem test_wf_illegal9_refuses_zero : (Instr.illegal9 1#4 2#4 0#4).wf false = false := by decide
theorem test_wf_illegalE_refuses_skp : (Instr.illegalE 1#4 0x9E#8).wf false = false ∧ (Instr.illegalE 1#4 0xA1#8).wf false = false := by
  decide
theorem test_wf_illegalF_refuses_listed : ∀ nn ∈ [0x07#8, 0x0A#8, 0x15#8, 0x18#8, 0x1E#8, 0x29#8, 0x30#8, 0x33#8, 0x55#8, 0x65#8, 0x75#8, 0x85#8],
    (Instr.illegalF 1#4 nn).wf false = false := by decide

/-! ### Decoding: a word of every row, bit by bit -/

theorem test_decode_cls : decode false 0b0000000011100000#16 = .cls 0#4 := by decide
theorem test_decode_ret : decode false 0b0000000011101110#16 = .ret 0#4 := by decide
theorem test_decode_scd : decode false 0b0000000011000011#16 = .scd 0#4 3#4 := by decide
theorem test_decode_scu : decode true 0b0000000011010100#16 = .scu 0#4 4#4 := by decide
theorem test_decode_scr : decode false 0b0000000011111011#16 = .scr 0#4 := by decide
theorem test_decode_scl : decode false 0b0000000011111100#16 = .scl 0#4 := by decide
theorem test_decode_low : decode false 0b0000000011111110#16 = .low 0#4 := by decide
theorem test_decode_high : decode false 0b0000000011111111#16 = .high 0#4 := by decide
theorem test_decode_retry0 : decode false 0b0000000100100011#16 = .retry0 0x123#12 := by decide
theorem test_decode_jp : decode false 0b0001001001000110#16 = .jp 0x246#12 := by decide
theorem test_decode_call : decode false 0b0010001100000000#16 = .call 0x300#12 := by decide
theorem test_decode_seImm : decode false 0b0011001100010000#16 = .seImm 3#4 0x10#8 := by decide
theorem test_decode_sneImm : decode false 0b0100001100010000#16 = .sneImm 3#4 0x10#8 := by decide
theorem test_decode_seReg : decode false 0b0101000100100000#16 = .seReg 1#4 2#4 := by decide
theorem test_decode_illegal5 : decode false 0b0101000100100001#16 = .illegal5 1#4 2#4 1#4 := by decide
theorem test_decode_ldImm : decode false 0b0110101000000101#16 = .ldImm 0xA#4 0x05#8 := by decide
theorem test_decode_addImm : decode false 0b0111000000000011#16 = .addImm 0#4 0x03#8 := by decide
theorem test_decode_ldReg : decode false 0b1000000100100000#16 = .ldReg 1#4 2#4 := by decide
theorem test_decode_orReg : decode false 0b1000000100100001#16 = .orReg 1#4 2#4 := by decide
theorem test_decode_andReg : decode false 0b1000000100100010#16 = .andReg 1#4 2#4 := by decide
theorem test_decode_xorReg : decode false 0b1000000100100011#16 = .xorReg 1#4 2#4 := by decide
theorem test_decode_addReg : decode false 0b1000000100100100#16 = .addReg 1#4 2#4 := by decide
theorem test_decode_sub : decode false 0b1000000100100101#16 = .sub 1#4 2#4 := by decide
theorem test_decode_shr : decode false 0b1000000100100110#16 = .shr 1#4 2#4 := by decide
theorem test_decode_subn : decode false 0b1000000100100111#16 = .subn 1#4 2#4 := by decide
theorem test_decode_shl : decode false 0b1000000100101110#16 = .shl 1#4 2#4 := by decide
theorem test_decode_illegal8XY8 : decode false 0b1000000100101000#16 = .illegal8XY8 1#4 2#4 := by decide
theorem test_decode_illegal8XY9 : decode false 0b1000000100101001#16 = .illegal8XY9 1#4 2#4 := by decide
theorem test_decode_illegal8XYA : decode false 0b1000000100101010#16 = .illegal8XYA 1#4 2#4 := by decide
theorem test_decode_illegal8XYB : decode false 0b1000000100101011#16 = .illegal8XYB 1#4 2#4 := by decide
theorem test_decode_illegal8XYC : decode false 0b1000000100101100#16 = .illegal8XYC 1#4 2#4 := by decide
theorem test_decode_illegal8XYD : decode false 0b1000000100101101#16 = .illegal8XYD 1#4 2#4 := by decide
theorem test_decode_illegal8XYF : decode false 0b1000000100101111#16 = .illegal8XYF 1#4 2#4 := by decide
theorem test_decode_sneReg : decode false 0b1001000100100000#16 = .sneReg 1#4 2#4 := by decide
theorem test_decode_illegal9 : decode false 0b1001000100101111#16 = .illegal9 1#4 2#4 0xF#4 := by decide
theorem test_decode_ldI : decode false 0b1010001000010000#16 = .ldI 0x210#12 := by decide
theorem test_decode_jpV0 : decode false 0b1011001000110000#16 = .jpV0 0x230#12 := by decide
theorem test_decode_rnd : decode false 0b1100000000001111#16 = .rnd 0#4 0x0F#8 := by decide
theorem test_decode_drw : decode false 0b1101000100100101#16 = .drw 1#4 2#4 5#4 := by decide
theorem test_decode_skp : decode false 0b1110000110011110#16 = .skp 1#4 := by decide
theorem test_decode_sknp : decode false 0b1110000110100001#16 = .sknp 1#4 := by decide
theorem test_decode_illegalE : decode false 0b1110000110100010#16 = .illegalE 1#4 0xA2#8 := by decide
theorem test_decode_ldVxDt : decode false 0b1111010100000111#16 = .ldVxDt 5#4 := by decide
theorem test_decode_ldVxK : decode false 0b1111001100001010#16 = .ldVxK 3#4 := by decide
theorem test_decode_ldDt : decode false 0b1111010100010101#16 = .ldDt 5#4 := by decide
theorem test_decode_ldSt : decode false 0b1111010100011000#16 = .ldSt 5#4 := by decide
theorem test_decode_addI : decode false 0b1111001000011110#16 = .addI 2#4 := by decide
theorem test_decode_ldF : decode false 0b1111000000101001#16 = .ldF 0#4 := by decide
theorem test_decode_ldHf : decode false 0b1111000000110000#16 = .ldHf 0#4 := by decide
theorem test_decode_ldB : decode false 0b1111001100110011#16 = .ldB 3#4 := by decide
theorem test_decode_ldMemVx : decode false 0b1111001101010101#16 = .ldMemVx 3#4 := by decide
theorem test_decode_ldVxMem : decode false 0b1111001001100101#16 = .ldVxMem 2#4 := by decide
theorem test_decode_ldR : decode false 0b1111101001110101#16 = .ldR 0xA#4 := by decide
theorem test_decode_ldVxR : decode false 0b1111000110000101#16 = .ldVxR 1#4 := by decide
theorem test_decode_illegalF : decode false 0b1111000011111111#16 = .illegalF 0#4 0xFF#8 := by decide
/-- 95_test_vectors.md 2.1: SCHIP's exit, an SCU word without the parameter, and bits 11..8 of the 0x0 group. -/
theorem test_decode_zero_group : decode false 0x00FD#16 = .retry0 0x0FD#12 ∧ decode false 0x00D4#16 = .retry0 0x0D4#12
    ∧ decode false 0x01E0#16 = .cls 1#4 := by decide
/-- The table's numbering is the word's own: the first byte stored is bits 15..8 (20_memory.md R50). -/
theorem test_decodeTableWord : decodeTableWord 16 0x2300 = some (.call 0x300#12) := by decide

/-! ### Reset -/

/-- 95_test_vectors.md 2.8 vector 3. -/
theorem test_reset_font : State.reset.memRead 0 = 0xF0#8 ∧ State.reset.memRead 1 = 0x90#8
    ∧ State.reset.memRead 0x4B = 0xF0#8 ∧ State.reset.memRead 0x4F = 0x80#8 ∧ State.reset.memRead 0x200 = 0#8 := by decide +kernel
/-- 95_test_vectors.md 2.8 vector 3: the first cycle after an empty load is a retry. -/
theorem test_reset_first_cycle : (nextOf (step State.reset)).map (·.pc) = some 0x200#16 := by decide +kernel
theorem test_reset_memory_canonical : Memory.wf State.reset.outside.params State.reset.mem = true := by decide +kernel
/-- Writing back the reset contents leaves nothing listed (log 9). -/
theorem test_memory_write_back : ((State.reset.memWrite 0x300 0x12#8).memWrite 0x1300 0x00#8).mem = [] := by decide +kernel

/-! ### Control transfer -/

theorem test_step_retry0 : seen { start .cosmacVIP with pc := 0x300#16, draw := true } 0x00FD (fun t => (t.pc, t.draw))
    = some (0x300#16, false) := by decide +kernel
theorem test_step_ret_empty : seen (start .xoChip) 0x00EE (fun t => (t.pc, t.sp, t.outside.result))
    = some (0x202#16, 0, some (.faulted (.stackUnderflow 0x00EE#16))) := by decide +kernel
theorem test_step_ret : seen ((start .cosmacVIP).push 0x206#16) 0x00EE (fun t => (t.pc, t.sp, t.stack[0]))
    = some (0x206#16, 0, 0x206#16) := by decide +kernel
theorem test_step_jp : seen (start .schip) 0x1201 (·.pc) = some 0x201#16 := by decide +kernel
theorem test_step_call_full : seen { start .cosmacVIP with sp := 12 } 0x2300 (fun t => (t.pc, t.sp, t.outside.result))
    = some (0x202#16, 12, some (.faulted (.stackOverflow 0x2300#16))) := by decide +kernel
theorem test_step_call : seen { start .schip with sp := 12, pc := 0xFFE#16 } 0x2300 (fun t => (t.pc, t.sp, t.stack[12]))
    = some (0x300#16, 13, 0x1000#16) := by decide +kernel
theorem test_step_seImm : seen (regs (start .schip) [(3#4, 0x10#8)]) 0x3310 (·.pc) = some 0x204#16
    ∧ seen (regs (start .schip) [(3#4, 0x11#8)]) 0x3310 (·.pc) = some 0x202#16 := by decide +kernel
theorem test_step_sneImm : seen (regs (start .schip) [(3#4, 0x10#8)]) 0x4310 (·.pc) = some 0x202#16 := by decide +kernel
theorem test_step_seReg : seen (regs (start .schip) [(1#4, 7#8), (2#4, 7#8)]) 0x5120 (·.pc) = some 0x204#16 := by decide +kernel
theorem test_step_sneReg : seen (regs (start .schip) [(1#4, 7#8), (2#4, 8#8)]) 0x9120 (·.pc) = some 0x204#16
    ∧ seen (start .schip) 0x9110 (·.pc) = some 0x202#16 := by decide +kernel
theorem test_step_jpV0_vip : seen (regs (start .cosmacVIP) [(0#4, 0xFF#8)]) 0xBFFF (·.pc) = some 0x10FE#16 := by decide +kernel
theorem test_step_jpV0_schip : seen (regs (start .schip) [(0#4, 0x01#8), (2#4, 0xFF#8)]) 0xB2FF (·.pc) = some 0x3FE#16 := by
  decide +kernel

/-! ### Arithmetic and logic -/

/-- Scenario A's first cycle. -/
theorem test_step_ldImm : seen (start .cosmacVIP) 0x6005 (fun t => (t.reg 0#4, t.pc)) = some (0x05#8, 0x202#16) := by decide +kernel
theorem test_step_addImm : seen (regs (start .schip) [(0#4, 2#8), (0xF#4, 9#8)]) 0x70FF (fun t => (t.reg 0#4, t.reg vf))
    = some (0x01#8, 0x09#8) := by decide +kernel
theorem test_step_ldReg : seen (regs (start .schip) [(1#4, 0x2A#8)]) 0x8010 (·.reg 0#4) = some 0x2A#8 := by decide +kernel
theorem test_step_or : seen (regs (start .cosmacVIP) [(0xF#4, 7#8), (1#4, 0x30#8)]) 0x8F11 (·.reg vf) = some 0#8
    ∧ seen (regs (start .schip) [(0xF#4, 7#8), (1#4, 0x30#8)]) 0x8F11 (·.reg vf) = some 0x37#8 := by decide +kernel
/-- 42_alu.md R102. -/
theorem test_step_and : seen (regs (start .xoChip) [(0#4, 0x3C#8), (1#4, 0xF0#8), (0xF#4, 5#8)]) 0x8012
    (fun t => (t.reg 0#4, t.reg vf)) = some (0x30#8, 5#8) := by decide +kernel
theorem test_step_xor : seen (regs (start .cosmacVIP) [(0#4, 0x5A#8), (1#4, 0x5A#8), (0xF#4, 3#8)]) 0x8013
    (fun t => (t.reg 0#4, t.reg vf)) = some (0#8, 0#8) := by decide +kernel
theorem test_step_add : seen (regs (start .schip) [(0#4, 0xFF#8), (1#4, 1#8)]) 0x8014 (fun t => (t.reg 0#4, t.reg vf))
    = some (0#8, 1#8) := by decide +kernel
theorem test_step_add_into_flag : seen (regs (start .schip) [(0xF#4, 0xFF#8), (1#4, 2#8)]) 0x8F14 (·.reg vf) = some 1#8 := by
  decide +kernel
theorem test_step_sub : seen (regs (start .schip) [(0#4, 0#8), (1#4, 1#8)]) 0x8015 (fun t => (t.reg 0#4, t.reg vf))
    = some (0xFF#8, 0#8) := by decide +kernel
theorem test_step_sub_equal : seen (regs (start .schip) [(0#4, 5#8), (1#4, 5#8)]) 0x8015 (fun t => (t.reg 0#4, t.reg vf))
    = some (0#8, 1#8) := by decide +kernel
theorem test_step_subn : seen (regs (start .schip) [(0#4, 1#8), (1#4, 0#8)]) 0x8017 (fun t => (t.reg 0#4, t.reg vf))
    = some (0xFF#8, 0#8) := by decide +kernel
theorem test_step_shr_vip : seen (regs (start .cosmacVIP) [(0#4, 0xFF#8), (1#4, 2#8)]) 0x8016
    (fun t => (t.reg 0#4, t.reg vf, t.reg 1#4)) = some (1#8, 0#8, 2#8) := by decide +kernel
theorem test_step_shr_schip : seen (regs (start .schip) [(0#4, 0xFF#8), (1#4, 2#8)]) 0x8016
    (fun t => (t.reg 0#4, t.reg vf)) = some (0x7F#8, 1#8) := by decide +kernel
theorem test_step_shl_xo : seen (regs (start .xoChip) [(0#4, 1#8), (1#4, 0x80#8)]) 0x801E
    (fun t => (t.reg 0#4, t.reg vf)) = some (0#8, 1#8) := by decide +kernel
theorem test_step_shl_schip : seen (regs (start .schip) [(0#4, 1#8), (1#4, 0x80#8)]) 0x801E
    (fun t => (t.reg 0#4, t.reg vf)) = some (2#8, 0#8) := by decide +kernel
/-- 42_alu.md R112: the draw is free, its counter moves by one (log 4). -/
theorem test_step_rnd_counts : seen (start .schip) 0xC00F (·.outside.draws) = some 1 := by decide +kernel

/-! ### Index register and memory -/

theorem test_step_ldI : seen (start .schip) 0xA210 (·.i) = some 0x210#16 := by decide +kernel
theorem test_step_addI : seen { regs (start .schip) [(1#4, 0xFF#8)] with i := 0xFFF0#16 } 0xF11E (fun t => (t.i, t.reg vf))
    = some (0x00EF#16, 0#8) := by decide +kernel
theorem test_step_ldF : seen (regs (start .schip) [(0#4, 0x10#8)]) 0xF029 (·.i) = some 0x50#16 := by decide +kernel
theorem test_step_ldHf : seen (regs (start .schip) [(0#4, 3#8)]) 0xF030 (·.i) = some 0x6E#16 := by decide +kernel
theorem test_step_ldB : seen { regs (start .schip) [(0#4, 0xFF#8)] with i := 0xFFE#16 } 0xF033
    (fun t => (t.memRead 0xFFE, t.memRead 0xFFF, t.memRead 0, t.i)) = some (2#8, 5#8, 5#8, 0xFFE#16) := by decide +kernel
/-- Scenario E. -/
theorem test_step_store_schip : seen { regs (start .schip) [(0#4, 0x11#8), (3#4, 0x44#8)] with i := 0x300#16 } 0xF355
    (fun t => (t.memRead 0x300, t.memRead 0x303, t.memRead 0x304, t.i)) = some (0x11#8, 0x44#8, 0#8, 0x300#16) := by decide +kernel
theorem test_step_store_vip : seen { start .cosmacVIP with i := 0x300#16 } 0xF355 (·.i) = some 0x304#16 := by decide +kernel
theorem test_step_load : seen { (start .schip).storeBytes 0x300 [0x12#8, 0x34#8, 0x56#8] with i := 0x300#16 } 0xF165
    (fun t => (t.reg 0#4, t.reg 1#4, t.reg 2#4, t.i)) = some (0x12#8, 0x34#8, 0#8, 0x300#16) := by decide +kernel
theorem test_step_load_xo : seen { start .xoChip with i := 0x300#16 } 0xFF65 (·.i) = some 0x310#16 := by decide +kernel
theorem test_step_ldR : seen { start .schip with v := Vector.ofFn fun k => BitVec.ofNat 8 (k.val + 1) } 0xFA75
    (fun t => t.rpl.toList) = some [1#8, 2#8, 3#8, 4#8, 5#8, 6#8, 7#8, 8#8] := by decide +kernel
theorem test_step_ldVxR : seen { regs (start .schip) [(0xF#4, 0x33#8)] with rpl := Vector.ofFn fun k => BitVec.ofNat 8 (k.val + 1) }
    0xFF85 (fun t => (t.reg 0#4, t.reg 7#4, t.reg 8#4, t.reg vf)) = some (1#8, 8#8, 0#8, 0x33#8) := by decide +kernel

/-! ### Timers and keys -/

theorem test_step_ldVxDt : seen { start .schip with delay := 0x3C#8 } 0xF507 (·.reg 5#4) = some 0x3C#8 := by decide +kernel
theorem test_step_ldDt : seen (regs (start .schip) [(5#4, 0x3C#8)]) 0xF515 (fun t => (t.delay, t.sound)) = some (0x3C#8, 0#8) := by
  decide +kernel
theorem test_step_ldSt : seen (regs (start .schip) [(5#4, 5#8)]) 0xF518 (fun t => (t.delay, t.sound)) = some (0#8, 5#8) := by
  decide +kernel
theorem test_step_wait_no_key : seen { start .schip with pc := 0x220#16 } 0xF30A (fun t => (t.pc, t.reg 3#4))
    = some (0x220#16, 0#8) := by decide +kernel
theorem test_step_wait_least_key : seen (keys { start .schip with pc := 0x220#16 } [7, 2]) 0xF30A (fun t => (t.pc, t.reg 3#4))
    = some (0x222#16, 2#8) := by decide +kernel
theorem test_step_skp : seen (keys (regs (start .schip) [(1#4, 0x14#8)]) [4]) 0xE19E (·.pc) = some 0x204#16
    ∧ seen (regs (start .schip) [(1#4, 4#8)]) 0xE19E (·.pc) = some 0x202#16 := by decide +kernel
theorem test_step_sknp : seen (keys (regs (start .schip) [(1#4, 4#8)]) [4]) 0xE1A1 (·.pc) = some 0x202#16
    ∧ seen (regs (start .schip) [(1#4, 4#8)]) 0xE1A1 (·.pc) = some 0x204#16 := by decide +kernel
/-- 95_test_vectors.md 2.5 vectors 4 and 5. -/
theorem test_decrement_timers : (nextOf (decrementTimers { start .schip with delay := 1#8, sound := 0#8 })).map
      (fun t => (t.delay, t.sound)) = some (0#8, 0#8)
    ∧ (nextOf (decrementTimers { start .schip with delay := 0#8, sound := 3#8 })).map
      (fun t => (t.delay, t.sound)) = some (0#8, 2#8) := by decide +kernel

/-! ### Display -/

theorem test_step_cls : seen { start .schip with grid := gridOf [(5, 5)], hiresMode := true } 0x00E0
    (fun t => (decide (t.grid = clearGrid), t.draw, t.hiresMode)) = some (true, true, true) := by decide +kernel
/-- Vectors 15 and 16. -/
theorem test_step_scd : seen { start .schip with grid := gridOf [(5, 0)], hiresMode := true } 0x00C3
      (fun t => decide (t.grid = gridOf [(5, 3)])) = some true
    ∧ seen { start .schip with grid := gridOf [(0, 0), (1, 0), (0, 1), (1, 1)] } 0x00C3
      (fun t => decide (t.grid = gridOf [(0, 2), (1, 2), (0, 3), (1, 3)])) = some true := by decide +kernel
/-- Vector 17. -/
theorem test_step_scu : seen { start .schip with grid := gridOf [(0, 0), (1, 0), (0, 1), (1, 1), (0, 10)] } 0x00D4
    (fun t => decide (t.grid = gridOf [(0, 6)])) = some true := by decide +kernel
/-- Vectors 19, 20 and 22. -/
theorem test_step_scr : seen { start .schip with grid := gridOf [(0, 0), (127, 5)], hiresMode := true } 0x00FB
      (fun t => decide (t.grid = gridOf [(4, 0)])) = some true
    ∧ seen { start .schip with grid := gridOf [(0, 0)] } 0x00FB (fun t => decide (t.grid = gridOf [(2, 0)])) = some true := by
  decide +kernel
/-- Vector 21. -/
theorem test_step_scl : seen { start .schip with grid := gridOf [(2, 0), (3, 0), (2, 1), (3, 1)] } 0x00FC
    (fun t => decide (t.grid = gridOf [(0, 0), (1, 0), (0, 1), (1, 1)])) = some true := by decide +kernel
theorem test_step_low : seen { start .schip with hiresMode := true, grid := gridOf [(9, 9)] } 0x00FE
    (fun t => (t.hiresMode, decide (t.grid = gridOf [(9, 9)]))) = some (false, true) := by decide +kernel
theorem test_step_high : seen (start .schip) 0x00FF (fun t => (t.hiresMode, t.draw)) = some (true, true) := by decide +kernel
/-- Vector 10: one lit physical pixel of a logical pixel is a collision. -/
theorem test_step_drw_partial_block : seen { drawing false 0#8 0#8 [0x80#8] with grid := gridOf [(1, 0)] } 0xD011
    (fun t => (decide (t.grid = gridOf [(0, 0), (0, 1), (1, 1)]), t.reg vf)) = some (true, 1#8) := by decide +kernel
/-- Vector 9: a clipped row counts only when it has a set bit. -/
theorem test_step_drw_big : seen ((drawing true 0#8 56#8 [0x80#8]).storeBytes 0x31E [0x80#8]) 0xD010
    (fun t => (decide (t.grid = gridOf [(0, 56)]), t.reg vf)) = some (true, 1#8) := by decide +kernel

/-! ### Illegal words -/

theorem test_step_illegal_keeps_draw : seen { start .schip with draw := true } 0x8008 (fun t => (t.pc, t.draw, t.outside.result))
    = some (0x202#16, true, some (.faulted (.illegalOpcode 0x8008#16))) := by decide +kernel
theorem test_step_illegal_words : ∀ w ∈ [0x5121, 0x8019, 0x801A, 0x801B, 0x801C, 0x801D, 0x801F, 0x912F, 0xE1A2, 0xF0FF],
    seen (start .schip) w (·.outside.faults) = some [.illegalOpcode (BitVec.ofNat 16 w)] := by decide +kernel

/-! ### Host transactions -/

/-- 95_test_vectors.md 2.8 vector 4, and the ROM at 0x200. -/
theorem test_powerAndLoad : (nextOf (powerAndLoad [0x12#8, 0x34#8] .schip { State.reset with rpl := Vector.replicate 8 5#8 })).map
    (fun t => (t.rpl[0], t.memRead 0x201, t.mode, t.sp)) = some (0#8, 0x34#8, .schip, 0) := by decide +kernel
theorem test_setInput : (nextOf (setInput 15 true State.reset)).map (fun t => (t.input[15], t.input[14])) = some (true, false) := by
  decide +kernel
/-- A core not powered takes no step (R31), until a program is loaded (R36). -/
theorem test_not_powered : step { State.reset with powered := false } = .refused .notPowered := rfl
theorem test_powered_by_the_load :
    (hostRun [.cycle, .powerAndLoad [0x12#8, 0x34#8] .schip, .cycle] { State.reset with powered := false }).pc = 0x234#16 := by
  decide +kernel

/-- The list of results of a run keeps completed cycles and faults in their order (R176): CLS, an illegal word, a retry. -/
theorem test_run_end : (runEnd [.powerAndLoad [0x00#8, 0xE0#8, 0x80#8, 0x08#8] .schip, .cycle, .setInput 3 true, .cycle, .cycle]
      State.reset).results
    = [.completed true, .faulted (.illegalOpcode 0x8008#16), .completed false] := by decide +kernel

/-! ### Witnesses: states and operands that meet the hypotheses of the statements -/

/-- A step that answers a next state with a property. -/
theorem next_with {o : Host.Outcome State Fault Refusal} {P : State → Prop} [DecidablePred P]
    (h : (nextOf o).any (fun t => decide (P t)) = true) : ∃ t, o = .next t ∧ P t := by
  cases o with
  | next t => exact ⟨t, rfl, by simpa [nextOf] using h⟩
  | fault f => simp [nextOf] at h
  | refused r => simp [nextOf] at h

/-- The state after reset in a mode with a word placed at `PC`. -/
def at200 (m : Mode) (w : Nat) : State := (start m).withFetchWord 16 w

theorem test_witness_decode_of_encode : (Instr.scu 0xF#4 0xF#4).wf true = true ∧ (Instr.retry0 0x0FD#12).wf false = true
    ∧ (Instr.illegalF 0xF#4 0xFF#8).wf false = true ∧ (Instr.illegal5 0#4 0#4 1#4).wf false = true := by decide
theorem test_witness_every_word : (Instr.scu 0#4 4#4).wf true = true ∧ encode (.scu 0#4 4#4) = 0x00D4#16 := by decide
/-- At reset, and with the word across the top of memory. -/
theorem test_witness_cycle_fetches :
    (State.reset.powered = true ∧ (0#16).toNat = (State.reset.memRead State.reset.pc.toNat).toNat * 256
      + (State.reset.memRead (State.reset.pc.toNat + 1)).toNat)
    ∧ ({ at200 .schip 0 with pc := 0xFFFF#16 }.powered = true
      ∧ (0x00F0#16).toNat = ({ at200 .schip 0 with pc := 0xFFFF#16 }.memRead 0xFFFF).toNat * 256
        + ({ at200 .schip 0 with pc := 0xFFFF#16 }.memRead (0xFFFF + 1)).toNat) := by decide +kernel
theorem test_witness_step_runs : (at200 .schip 0x00D4).powered = true
    ∧ (Instr.scu 0#4 4#4).wf (at200 .schip 0x00D4).outside.params.scrollUpEnabled = true
    ∧ (encode (.scu 0#4 4#4)).toNat = ((at200 .schip 0x00D4).memRead (at200 .schip 0x00D4).pc.toNat).toNat * 256
      + ((at200 .schip 0x00D4).memRead ((at200 .schip 0x00D4).pc.toNat + 1)).toNat := by decide +kernel
theorem test_witness_powered : State.reset.powered = true ∧ { State.reset with powered := false }.powered = false := by decide
theorem test_witness_placed_word : 0 < 65536 ∧ 65535 < 65536 := by decide
theorem test_witness_faulted_cycle : ∃ t, step (at200 .schip 0x8008) = .next t
    ∧ t.outside.result = some (.faulted (.illegalOpcode 0x8008#16)) := next_with (by decide +kernel)
theorem test_witness_cycle_faults_illegal : (∃ t, step (at200 .schip 0xFFFF) = .next t ∧ t.pc = 0x202#16)
    ∧ isIllegalWord (at200 .schip 0xFFFF).fetch = true := ⟨next_with (by decide +kernel), by decide +kernel⟩
theorem test_witness_cycle_faults_call : (∃ t, step { at200 .cosmacVIP 0x2FFF with sp := 12 } = .next t ∧ t.sp = 12)
    ∧ { at200 .cosmacVIP 0x2FFF with sp := 12 }.fetch.toNat / 4096 = 2
    ∧ stackDepth .cosmacVIP ≤ { at200 .cosmacVIP 0x2FFF with sp := 12 }.sp.val :=
  ⟨next_with (by decide +kernel), by decide +kernel⟩
theorem test_witness_cycle_faults_ret : (∃ t, step (at200 .schip 0x0FEE) = .next t ∧ t.sp = 0)
    ∧ (at200 .schip 0x0FEE).fetch.toNat / 4096 = 0 ∧ (at200 .schip 0x0FEE).fetch.toNat % 256 = 0xEE
    ∧ (at200 .schip 0x0FEE).sp.val = 0 := ⟨next_with (by decide +kernel), by decide +kernel⟩
/-- Also the witness of the statements that assume only a step that answers a next state. -/
theorem test_witness_next_state : ∃ t, step State.reset = .next t ∧ t.pc = 0x200#16 := next_with (by decide +kernel)
/-- The ends of the word ranges of R80, and both cases of FX0A. -/
theorem test_witness_pc_advances : ∀ w ∈ [0x1000, 0x2FFF, 0xBFFF, 0x3000, 0xAFFF, 0xD000, 0xFF85, 0xF00A],
    (nextOf (step (at200 .schip w))).isSome = true ∧ isIllegalWord (at200 .schip w).fetch = false
      ∧ ((0x1000 ≤ (at200 .schip w).fetch.toNat ∧ (at200 .schip w).fetch.toNat ≤ 0xBFFF) ∨ 0xD000 ≤ (at200 .schip w).fetch.toNat)
      ∧ (at200 .schip w).sp.val < stackDepth (at200 .schip w).mode := by decide +kernel
theorem test_witness_no_key : (∀ k : Fin 16, (at200 .schip 0xF00A).input[k] = false)
    ∧ ∃ k : Fin 16, (keys (at200 .schip 0xF00A) [15]).input[k] = true := by decide +kernel
theorem test_witness_retry : (at200 .schip 0x00DF).powered = true ∧ isRetryWord false (at200 .schip 0x00D0).fetch = true
    ∧ isRetryWord State.reset.outside.params.scrollUpEnabled State.reset.fetch = true
    ∧ (at200 .schip 0xFF0A).fetch.toNat / 4096 = 0xF ∧ (at200 .schip 0xFF0A).fetch.toNat % 256 = 0x0A
    ∧ ∀ k : Fin 16, (at200 .schip 0xFF0A).input[k] = false := by decide +kernel
theorem test_witness_draw : (∃ t, step (at200 .schip 0x5121) = .next t
      ∧ t.outside.result = some (.faulted (.illegalOpcode 0x5121#16)))
    ∧ ∃ t, step (at200 .schip 0x00E0) = .next t ∧ t.outside.result = some (.completed true) :=
  ⟨next_with (by decide +kernel), next_with (by decide +kernel)⟩

/-! Each clause of the access matrix: a step that changes the element. -/

theorem test_witness_matrix_registers : (∃ t, step { at200 .cosmacVIP 0x8011 with v := Vector.replicate 16 1#8 } = .next t
      ∧ t.reg vf ≠ { at200 .cosmacVIP 0x8011 with v := Vector.replicate 16 1#8 }.reg vf)
    ∧ (∃ t, step { at200 .schip 0xFF65 with i := 0x200#16 } = .next t ∧ t.reg vf = (at200 .schip 0xFF65).reg vf
      ∧ t.reg 0#4 ≠ (at200 .schip 0xFF65).reg 0#4)
    ∧ ∃ t, step { at200 .schip 0xFF85 with rpl := Vector.replicate 8 1#8 } = .next t ∧ t.reg 7#4 ≠ (at200 .schip 0xFF85).reg 7#4 :=
  ⟨next_with (by decide +kernel), next_with (by decide +kernel), next_with (by decide +kernel)⟩
theorem test_witness_matrix_pc_draw : (∃ t, step (at200 .schip 0x1201) = .next t ∧ t.pc ≠ (at200 .schip 0x1201).pc + 2#16)
    ∧ ∃ t, step (at200 .schip 0x00E0) = .next t ∧ t.draw ≠ (at200 .schip 0x00E0).draw :=
  ⟨next_with (by decide +kernel), next_with (by decide +kernel)⟩
theorem test_witness_matrix_memory : ∃ t, step { at200 .schip 0xF033 with i := 0x300#16, v := Vector.replicate 16 1#8 } = .next t
    ∧ t.memRead 0x302 ≠ { at200 .schip 0xF033 with i := 0x300#16 }.memRead 0x302 := next_with (by decide +kernel)
theorem test_witness_matrix_index : ∃ t, step (at200 .xoChip 0xF065) = .next t ∧ t.i ≠ (at200 .xoChip 0xF065).i :=
  next_with (by decide +kernel)
theorem test_witness_matrix_stack : ∃ t, step (at200 .schip 0x2300) = .next t ∧ t.stack ≠ (at200 .schip 0x2300).stack
    ∧ t.sp ≠ (at200 .schip 0x2300).sp := next_with (by decide +kernel)
theorem test_witness_matrix_rpl : ∃ t, step { at200 .schip 0xF075 with v := Vector.replicate 16 1#8 } = .next t
    ∧ t.rpl ≠ (at200 .schip 0xF075).rpl := next_with (by decide +kernel)
theorem test_witness_matrix_timers : (∃ t, step { at200 .schip 0xF015 with v := Vector.replicate 16 1#8 } = .next t
      ∧ t.delay ≠ (at200 .schip 0xF015).delay)
    ∧ ∃ t, step { at200 .schip 0xF018 with v := Vector.replicate 16 1#8 } = .next t
      ∧ t.sound ≠ (at200 .schip 0xF018).sound := ⟨next_with (by decide +kernel), next_with (by decide +kernel)⟩
theorem test_witness_matrix_display : (∃ t, step (at200 .schip 0x00FF) = .next t ∧ t.hiresMode ≠ (at200 .schip 0x00FF).hiresMode)
    ∧ ∃ t, step (at200 .schip 0xD001) = .next t ∧ t.grid ≠ (at200 .schip 0xD001).grid :=
  ⟨next_with (by decide +kernel), next_with (by decide +kernel)⟩

/-- Two states with one Machine State and different records. -/
theorem test_witness_same_machine :
    SameMachine State.reset { State.reset with outside := { State.reset.outside with results := [.completed true] } }
    ∧ State.reset.outside.params
      = { State.reset with outside := { State.reset.outside with results := [.completed true] } }.outside.params
    ∧ ∀ k, Config.freeDraw (State.reset.outside.draws + k)
      = Config.freeDraw ({ State.reset.outside with results := [.completed true] }.draws + k) :=
  ⟨rfl, rfl, fun _ => rfl⟩
/-- A cycle of one Machine State in two records, on a word that takes a draw. -/
theorem test_witness_cycle_function :
    (∃ t, step (at200 .schip 0xC0FF) = .next t ∧ t.pc = 0x202#16)
    ∧ (∃ v, step { at200 .schip 0xC0FF with outside := { (at200 .schip 0xC0FF).outside with results := [.completed true] } }
        = .next v ∧ v.pc = 0x202#16)
    ∧ decode (at200 .schip 0xC0FF).outside.params.scrollUpEnabled (at200 .schip 0xC0FF).fetch = .rnd 0#4 0xFF#8 :=
  ⟨next_with (by decide +kernel), next_with (by decide +kernel), by decide +kernel⟩
theorem test_witness_restored : { start .xoChip with pc := 0x300#16 }.outside.params = State.reset.outside.params
    ∧ ∀ k, Config.freeDraw (State.reset.outside.draws + k) = Config.freeDraw ((start .xoChip).outside.draws + k) :=
  ⟨rfl, fun _ => rfl⟩
/-- A state with a full stack and a written byte (RET at 0x200). -/
def fullStack : State := { start .cosmacVIP with mem := [(0x201, 0xEE#8)], sp := 12 }

/-- It meets the invariant, and steps. -/
theorem test_witness_invariant : Inv fullStack ∧ ∃ t, step fullStack = .next t ∧ t.sp = 11 := by
  have hs : ∀ k : Fin 16, fullStack.stack[k] = 0#16 := by decide
  exact ⟨⟨by decide +kernel, by decide, fun k _ => hs k, rfl, fun f hf => by cases hf⟩, next_with (by decide +kernel)⟩
/-- The transactions of the invariant's second statement answer next states, a restore too. -/
theorem test_witness_transactions : ∀ tr ∈ [Transaction.powerAndLoad [1#8] .schip, .setInput 15 true, .cycle, .decrementTimers,
    .readSnapshot], (nextOf (transact tr fullStack)).isSome = true := by decide +kernel
theorem test_witness_restore : Inv fullStack ∧ ∃ t, transact (.restore fullStack) State.reset = .next t :=
  ⟨test_witness_invariant.1, _, if_pos rfl⟩

theorem test_witness_ret : { start .schip with sp := 1 }.sp.val = (0 : Fin 16).val + 1
    ∧ { start .schip with sp := 16 }.sp.val = (15 : Fin 16).val + 1 := by decide
theorem test_witness_stack_faults : (start .schip).sp.val = 0
    ∧ { start .cosmacVIP with sp := 12 }.sp.val = (if Mode.cosmacVIP = .cosmacVIP then 12 else 16)
    ∧ { start .xoChip with sp := 16 }.sp.val = (if (start .xoChip).mode = .cosmacVIP then 12 else 16) := by decide
theorem test_witness_call : { start .cosmacVIP with sp := 11 }.sp.val < stackDepth (start .cosmacVIP).mode
    ∧ { start .schip with sp := 15 }.sp.val < stackDepth (start .schip).mode := by decide
theorem test_witness_logic : (Instr.xorReg 1#4 2#4 = .xorReg 1#4 2#4 ∧ 3 = 3 ∧ xor = xor)
    ∧ logicVfReset (start .cosmacVIP) = true ∧ logicVfReset (start .schip) = false ∧ ¬ (1#4 = vf ∧ logicVfReset (start .schip) = true)
    ∧ (1#4 : Reg) ≠ vf := ⟨⟨rfl, rfl, rfl⟩, by decide⟩
theorem test_witness_carry : ((regs (start .schip) [(0#4, 0xFF#8), (1#4, 1#8)]).reg 0#4).toNat = 255
    ∧ ((regs (start .schip) [(0#4, 0xFF#8), (1#4, 1#8)]).reg 1#4).toNat = 1
    ∧ ((regs (start .schip) [(0#4, 0x80#8), (1#4, 0x7F#8)]).reg 0#4).toNat = 128
    ∧ ((regs (start .schip) [(0#4, 0x80#8), (1#4, 0x7F#8)]).reg 1#4).toNat = 127 := by decide +kernel
theorem test_witness_shift : (2#8 : Byte) = (if (start .cosmacVIP).mode = .schip then 1#8 else 2#8)
    ∧ (1#8 : Byte) = (if (start .schip).mode = .schip then 1#8 else 2#8) := by decide
theorem test_witness_default_policy : (start .cosmacVIP).outside.params.logicVfReset = defaultParams.logicVfReset := rfl
theorem test_witness_transfer : (0#4 : Reg).toNat ≤ (0#4 : Reg).toNat ∧ (15#4 : Reg).toNat ≤ (15#4 : Reg).toNat
    ∧ (7 : Fin 8).val ≤ (15#4 : Reg).toNat := by decide
theorem test_witness_least_key : ((keys (start .schip) [0, 15]).input[(0 : Fin 16)] = true)
    ∧ ((keys (start .schip) [15]).input[(15 : Fin 16)] = true
      ∧ ∀ j : Fin 16, j < 15 → (keys (start .schip) [15]).input[j] = false)
    ∧ ∀ k : Fin 16, (start .schip).input[k] = false := by decide +kernel
theorem test_witness_key_named : (15 : Fin 16).val = ((regs (start .schip) [(1#4, 0xFF#8)]).reg 1#4).toNat % 16
    ∧ (0 : Fin 16).val = ((start .schip).reg 1#4).toNat % 16 := by decide +kernel
theorem test_witness_scrolls : 4 = (if { start .schip with hiresMode := true }.hiresMode = true then 4 else 2)
    ∧ 2 = (if (start .schip).hiresMode = true then 4 else 2)
    ∧ 15 = (if { start .schip with hiresMode := true }.hiresMode = true then (15#4 : Nibble).toNat else (15#4 : Nibble).toNat / 2 * 2)
    ∧ 14 = (if (start .schip).hiresMode = true then (15#4 : Nibble).toNat else (15#4 : Nibble).toNat / 2 * 2) := by decide
theorem test_witness_drw : ¬ ((start .schip).hiresMode = true ∧ (0#4 : Nibble) = 0#4)
    ∧ ¬ ({ start .schip with hiresMode := true }.hiresMode = true ∧ (15#4 : Nibble) = 0#4) := by decide
theorem test_witness_drw_big : { start .schip with hiresMode := true }.hiresMode = true := by decide
theorem test_witness_drw_twice : (0#4 : Reg) ≠ vf ∧ (14#4 : Reg) ≠ vf := by decide
theorem test_witness_illegal : Instr.illegal9 1#4 2#4 0xF#4 = .illegal5 1#4 2#4 0xF#4 ∨ Instr.illegal9 1#4 2#4 0xF#4 = .illegal9 1#4 2#4 0xF#4 := by
  decide
theorem test_witness_rom : (List.replicate 0xE01 0#8).length > 0x1000 - 0x200 ∧ (List.replicate 0xE00 0#8).length ≤ 0xE00
    ∧ ([] : List Byte).length ≤ 0xE00 := by
  rw [List.length_replicate, List.length_replicate]
  decide
/-- The ends of the regions of the memory after a load of one byte. -/
theorem test_witness_load_regions : 0 < [7#8].length ∧ (0x1FF < 0x1000 ∧ 0x1FF < 0x200) ∧ (0x201 < 0x1000 ∧ 0x200 + [7#8].length ≤ 0x201)
    ∧ (State.reset.outside.params.bigFontBase.toNat ≤ 0x50 ∧ 0xEF < State.reset.outside.params.bigFontBase.toNat
        + State.reset.outside.params.bigFont.length)
    ∧ 0x4F < State.reset.outside.params.fontSmall.length := by decide +kernel
/-- A transaction that answers a next state, one that answers none, and a powered cycle after a run. -/
theorem test_witness_run_end : (∃ t, transact (.setInput 15 true) (runEnd [] State.reset).snapshot = .next t ∧ t.pc = 0x200#16)
    ∧ transact (.setInput 16 true) (runEnd [] State.reset).snapshot = .refused (.noSuchKey 16)
    ∧ (runEnd [.cycle] State.reset).snapshot.powered = true :=
  ⟨next_with (by decide +kernel), rfl, by decide +kernel⟩
theorem test_witness_set_input : 0 < 16 ∧ 15 < 16 ∧ 16 ≤ 16 := by decide

end Sys2Proof.Tests
end

/-! The statements of spec/10_state.md: determinism, the invariant, what a cycle never writes, `set_input` and the end of a
run. Two facts about every instruction carry them, each proved by one case split over `exec`: the frame of a cycle
(`exec_frame`), and that cores in the same Machine State run alike beside different records (`exec_endAlike`). -/

namespace Sys2Proof.Machine

/-! ### The frame of a cycle -/

theorem stackDepth_le (m : Mode) : stackDepth m ≤ 16 := by cases m <;> decide

/-- What a cycle may do to the stack (R21, R87, R89): keep it, push one entry where there is room, or give one up. -/
inductive StackMove (s t : State) : Prop where
  | kept (stack : t.stack = s.stack) (sp : t.sp = s.sp)
  | pushed (a : Word) (room : s.sp.val < stackDepth s.mode) (stack : t.stack = s.stack.setIfInBounds s.sp.val a)
      (sp : t.sp.val = s.sp.val + 1)
  | popped (stack : t.stack = s.stack) (sp : t.sp.val = s.sp.val - 1)

/-- What holds between the states before and after every cycle, whichever instruction it ran: the host's own elements
are kept, memory changes by stores only (none, when the list of bytes is empty), and the stack makes one move. -/
structure CycleFrame (s t : State) : Prop where
  input : t.input = s.input
  mode : t.mode = s.mode
  powered : t.powered = s.powered
  wraparound : t.wraparound = s.wraparound
  params : t.outside.params = s.outside.params
  memory : ∃ a bs, t.mem = (s.storeBytes a bs).mem
  stack : StackMove s t

theorem push_sp_val {s : State} (a : Word) (h : s.sp.val < 16) : (s.push a).sp.val = s.sp.val + 1 := by
  simp only [push_sp, Fin.ofNat]; omega

theorem pop_sp_val (s : State) : s.pop.sp.val = s.sp.val - 1 := by
  have := s.sp.isLt
  simp only [pop_sp, Fin.ofNat]; omega

/-- The frame of a cycle that stores nothing. -/
theorem CycleFrame.of_mem_eq {s t : State} (hmem : t.mem = s.mem) (hstack : StackMove s t)
    (hfixed : t.input = s.input ∧ t.mode = s.mode ∧ t.powered = s.powered ∧ t.wraparound = s.wraparound
      ∧ t.outside.params = s.outside.params) : CycleFrame s t :=
  let ⟨hinput, hmode, hpowered, hwraparound, hparams⟩ := hfixed
  ⟨hinput, hmode, hpowered, hwraparound, hparams, ⟨0, [], hmem⟩, hstack⟩

/-- Every execution stays within the frame. -/
theorem exec_frame {i : Instr} {s t : State} (h : exec i s = .next t) : CycleFrame s t := by
  cases i
  case ret u =>
    simp only [exec, execRet] at h
    split at h <;> cases h
    · exact .of_mem_eq rfl (.kept rfl rfl) ⟨rfl, rfl, rfl, rfl, rfl⟩
    · exact .of_mem_eq rfl (.popped rfl (pop_sp_val s)) ⟨rfl, rfl, rfl, rfl, rfl⟩
  case call nnn =>
    simp only [exec, execCall] at h
    split at h
    · cases h; exact .of_mem_eq rfl (.kept rfl rfl) ⟨rfl, rfl, rfl, rfl, rfl⟩
    · next room =>
      cases h
      have hroom : s.sp.val < stackDepth s.mode := Nat.lt_of_not_le room
      exact .of_mem_eq rfl (.pushed s.pc hroom rfl (push_sp_val s.pc (hroom.trans_le (stackDepth_le _))))
        ⟨rfl, rfl, rfl, rfl, rfl⟩
  case drw x y n =>
    simp only [exec, execDrw] at h
    split at h <;> cases h <;> exact .of_mem_eq rfl (.kept rfl rfl) ⟨rfl, rfl, rfl, rfl, rfl⟩
  case ldVxK x =>
    simp only [exec, execLdVxK] at h
    split at h <;> cases h <;> exact .of_mem_eq rfl (.kept rfl rfl) ⟨rfl, rfl, rfl, rfl, rfl⟩
  case ldB x | ldMemVx x =>
    cases h
    exact ⟨by simp, by simp, by simp, by simp, by simp, ⟨_, _, rfl⟩, .kept (by simp) (by simp)⟩
  -- Every other instruction neither stores a byte nor touches the stack.
  all_goals
    cases h
    exact .of_mem_eq (by simp) (.kept (by simp) (by simp)) (by simp)

/-! ### The same Machine State beside another record -/

/-- The same core with other draws taken and other results returned: all that R42 leaves free. -/
def State.withRecord (s : State) (draws : Nat) (results : List CycleResult) : State :=
  { s with outside := { s.outside with draws := draws, results := results } }

theorem sameMachine_withRecord (s : State) (n : Nat) (rs : List CycleResult) : SameMachine s (s.withRecord n rs) := rfl

theorem SameMachine.eq_withRecord {s u : State} (h : SameMachine s u) (hp : s.outside.params = u.outside.params) :
    u = s.withRecord u.outside.draws u.outside.results := by
  simp only [State.withRecord, hp]
  exact h.symm

section WithRecord
variable (s : State) (n : Nat) (rs : List CycleResult)

theorem withRecord_skipIf (c : Bool) : (s.withRecord n rs).skipIf c = (s.skipIf c).withRecord n rs := by cases c <;> rfl

theorem withRecord_logicReset : (s.withRecord n rs).logicReset = s.logicReset.withRecord n rs := by
  have hpolicy : logicVfReset (s.withRecord n rs) = logicVfReset s := rfl
  unfold State.logicReset
  rw [hpolicy]
  split <;> rfl

theorem withRecord_storeBytes (bs : List Byte) : ∀ (s : State) (a : Nat),
    (s.withRecord n rs).storeBytes a bs = (s.storeBytes a bs).withRecord n rs := by
  induction bs with
  | nil => intros; rfl
  | cons b bs ih => intro s a; exact ih (s.memWrite a b) (a + 1)

end WithRecord

/-- Two outcomes that a core answers from the same Machine State beside two records: the same next Machine State, the
same result on top of each record, and equally many draws taken. -/
def EndAlike (s : State) (n : Nat) (rs : List CycleResult) (o o' : Host.Outcome State Fault Refusal) : Prop :=
  ∃ t r k, o = .next t ∧ t.outside.results = r :: s.outside.results ∧ t.outside.draws = s.outside.draws + k
    ∧ o' = .next (t.withRecord (n + k) (r :: rs))

section EndAlike
variable {s u v : State} {n : Nat} {rs : List CycleResult}

theorem complete_endAlike (d : Bool) (k : Nat) (hv : v = u.withRecord (n + k) rs)
    (hr : u.outside.results = s.outside.results) (hn : u.outside.draws = s.outside.draws + k) :
    EndAlike s n rs (complete d u) (complete d v) :=
  ⟨_, .completed d, k, rfl, congrArg _ hr, hn, by rw [hv]; rfl⟩

theorem raise_endAlike (f : Fault) : EndAlike s n rs (raise f s) (raise f (s.withRecord n rs)) :=
  ⟨_, .faulted f, 0, rfl, rfl, rfl, rfl⟩

/-- A branch on a condition that both cores see alike. -/
theorem endAlike_ite {c : Prop} [Decidable c] {a b a' b' : Host.Outcome State Fault Refusal}
    (ht : c → EndAlike s n rs a a') (he : ¬ c → EndAlike s n rs b b') :
    EndAlike s n rs (if c then a else b) (if c then a' else b') := by
  split
  · next h => exact ht h
  · next h => exact he h

/-- An instruction sees no more of the record than one draw, and that only in RND (R42). -/
theorem exec_endAlike (i : Instr) (s : State) (n : Nat) (rs : List CycleResult)
    (hdraw : (∃ x nn, i = .rnd x nn) → Config.freeDraw s.outside.draws = Config.freeDraw n) :
    EndAlike s n rs (exec i s) (exec i (s.withRecord n rs)) := by
  cases i
  case ret u =>
    exact endAlike_ite (fun _ => raise_endAlike _) (fun _ => complete_endAlike _ 0 rfl rfl rfl)
  case call nnn =>
    exact endAlike_ite (fun _ => raise_endAlike _) (fun _ => complete_endAlike _ 0 rfl rfl rfl)
  case drw x y rows =>
    exact endAlike_ite (fun _ => complete_endAlike _ 0 rfl rfl rfl) (fun _ => complete_endAlike _ 0 rfl rfl rfl)
  case ldVxK x =>
    have hkey : leastKeyDown (s.withRecord n rs) = leastKeyDown s := rfl
    simp only [exec, execLdVxK, hkey]
    cases leastKeyDown s <;> exact complete_endAlike _ 0 rfl rfl rfl
  case rnd x nn =>
    have h : (s.withRecord n rs).nextDraw = s.nextDraw := (hdraw ⟨x, nn, rfl⟩).symm
    refine complete_endAlike false 1 ?_ rfl rfl
    rw [h]; rfl
  case orReg | andReg | xorReg =>
    exact complete_endAlike _ 0 (withRecord_logicReset (s.setReg _ _) n rs) (by simp) (by simp)
  case seImm | sneImm | seReg | sneReg | skp | sknp =>
    exact complete_endAlike _ 0 (withRecord_skipIf _ _ _ _) (by simp) (by simp)
  case ldB => exact complete_endAlike _ 0 (withRecord_storeBytes _ _ _ _ _) (by simp) (by simp)
  case ldMemVx x =>
    exact complete_endAlike _ 0 (congrArg (State.setI · _) (withRecord_storeBytes _ _ _ _ _)) (by simp) (by simp)
  case illegal5 | illegal8XY8 | illegal8XY9 | illegal8XYA | illegal8XYB | illegal8XYC | illegal8XYD | illegal8XYF
      | illegal9 | illegalE | illegalF => exact raise_endAlike _
  -- Every other instruction is one composition of updates, none of which reads the record.
  all_goals exact complete_endAlike _ 0 rfl rfl rfl

end EndAlike

/-! ### One cycle -/

theorem step_of_powered {s : State} (h : s.powered = true) :
    step s = exec (decode s.outside.params.scrollUpEnabled s.fetch) s.advance := if_pos h

/-- A next state of a step is a powered core's execution of the word it fetched. -/
theorem exec_of_step {s t : State} (h : step s = .next t) :
    s.powered = true ∧ exec (decode s.outside.params.scrollUpEnabled s.fetch) s.advance = .next t := by
  by_cases hp : s.powered = true
  · exact ⟨hp, step_of_powered hp ▸ h⟩
  · simp [step, hp] at h

/-- Every cycle stays within the frame, the provisional advance of `PC` being made. -/
theorem step_frame {s t : State} (h : step s = .next t) : CycleFrame s.advance t := exec_frame (exec_of_step h).2

/-- A powered core's cycle returns one result. -/
theorem step_returns {s : State} (hp : s.powered = true) : ∃ t r, step s = .next t
    ∧ t.outside.results = r :: s.outside.results
    ∧ (r = .completed t.draw ∨ ∃ f, r = .faulted f ∧ isCycleFault f = true ∧ t.draw = s.draw) := by
  rw [step_of_powered hp]
  exact exec_returns _ s.advance

/-- Powered cores in the same Machine State make the same cycle. -/
theorem step_endAlike {s : State} (n : Nat) (rs : List CycleResult) (hp : s.powered = true)
    (hdraw : (∃ x nn, decode s.outside.params.scrollUpEnabled s.fetch = .rnd x nn) →
      Config.freeDraw s.outside.draws = Config.freeDraw n) :
    EndAlike s n rs (step s) (step (s.withRecord n rs)) := by
  have hp' : (s.withRecord n rs).powered = true := hp
  rw [step_of_powered hp, step_of_powered hp']
  exact exec_endAlike _ s.advance n rs hdraw

/-! ### Runs beside two records -/

theorem afterTransaction_of_next {tr : Transaction} {s t : State} (h : transact tr s = .next t) :
    afterTransaction tr s = t := by simp [afterTransaction, h]

theorem afterTransaction_of_no_next {tr : Transaction} {s : State} (h : ∀ t, transact tr s ≠ .next t) :
    afterTransaction tr s = s := by
  unfold afterTransaction
  split
  · next t ht => exact absurd ht (h t)
  · rfl
  · rfl

/-- The ROM is too long: the error (R155). -/
theorem powerAndLoad_of_too_long {rom : List Byte} (h : rom.length > maxRom) (mode : Mode) (s : State) :
    powerAndLoad rom mode s = .fault (.romTooLarge rom.length) := if_pos h

/-- The ROM fits: the state after power-on with the ROM stored (R168). -/
theorem powerAndLoad_of_fits {rom : List Byte} (h : ¬ rom.length > maxRom) (mode : Mode) (s : State) :
    powerAndLoad rom mode s = .next ((powerOn mode s.outside).storeBytes programBase rom) := if_neg h

/-- A transaction leaves the same Machine State beside either record, and takes equally many draws. -/
def StaysAlike (tr : Transaction) (s : State) (n : Nat) (rs : List CycleResult) : Prop :=
  ∃ k rs', (afterTransaction tr s).outside.draws = s.outside.draws + k
    ∧ afterTransaction tr (s.withRecord n rs) = (afterTransaction tr s).withRecord (n + k) rs'

section StaysAlike
variable {tr : Transaction} {s : State} {n : Nat} {rs : List CycleResult}

/-- A transaction that answers a next state beside either record and touches neither record. -/
theorem staysAlike_of_next {t : State} (h : transact tr s = .next t)
    (h' : transact tr (s.withRecord n rs) = .next (t.withRecord n rs)) (hn : t.outside.draws = s.outside.draws) :
    StaysAlike tr s n rs := by
  rw [StaysAlike, afterTransaction_of_next h, afterTransaction_of_next h']
  exact ⟨0, rs, hn, rfl⟩

/-- A transaction that answers one rejection beside either record. -/
theorem staysAlike_of_no_next {o : Host.Outcome State Fault Refusal} (h : transact tr s = o)
    (h' : transact tr (s.withRecord n rs) = o) (ho : ∀ t, o ≠ .next t) : StaysAlike tr s n rs := by
  rw [StaysAlike, afterTransaction_of_no_next (h ▸ ho), afterTransaction_of_no_next (h' ▸ ho)]
  exact ⟨0, rs, rfl, rfl⟩

end StaysAlike

/-- Every transaction does so, if the next draw is the same: only a cycle can take one. -/
theorem transact_staysAlike (tr : Transaction) (s : State) (n : Nat) (rs : List CycleResult)
    (hdraw : Config.freeDraw s.outside.draws = Config.freeDraw n) : StaysAlike tr s n rs := by
  cases tr with
  | cycle =>
    by_cases hp : s.powered = true
    · obtain ⟨t, r, k, ht, -, hk, hv⟩ := step_endAlike n rs hp fun _ => hdraw
      rw [StaysAlike, afterTransaction_of_next (tr := .cycle) ht, afterTransaction_of_next (tr := .cycle) hv]
      exact ⟨k, r :: rs, hk, rfl⟩
    · exact staysAlike_of_no_next (if_neg hp) (if_neg hp) (by simp)
  | powerAndLoad rom mode =>
    by_cases h : rom.length > maxRom
    · exact staysAlike_of_no_next (powerAndLoad_of_too_long h mode s) (powerAndLoad_of_too_long h mode _) (by simp)
    · have hload : transact (.powerAndLoad rom mode) (s.withRecord n rs)
          = .next (((powerOn mode s.outside).storeBytes programBase rom).withRecord n rs) := by
        rw [← withRecord_storeBytes]; exact powerAndLoad_of_fits h mode _
      exact staysAlike_of_next (powerAndLoad_of_fits h mode s) hload (by simp [powerOn])
  | setInput key pressed =>
    by_cases h : key < 16
    · exact staysAlike_of_next (if_pos h) (if_pos h) rfl
    · exact staysAlike_of_no_next (if_neg h) (if_neg h) (by simp)
  | decrementTimers => exact staysAlike_of_next rfl rfl rfl
  | readSnapshot => exact staysAlike_of_next rfl rfl rfl
  | restore snapshot =>
    by_cases h : snapshot.outside.params = s.outside.params
    · exact staysAlike_of_next (if_pos h) (if_pos h) rfl
    · exact staysAlike_of_no_next (if_neg h) (if_neg h) (by simp)

/-- A run leaves the same Machine State beside either record, where every later draw is the same. -/
theorem hostRun_withRecord (run : List Transaction) : ∀ (s : State) (n : Nat) (rs : List CycleResult),
    (∀ k, Config.freeDraw (s.outside.draws + k) = Config.freeDraw (n + k)) →
    SameMachine (hostRun run s) (hostRun run (s.withRecord n rs)) := by
  induction run with
  | nil => intro s n rs _; exact sameMachine_withRecord s n rs
  | cons tr run ih =>
    intro s n rs hdraws
    obtain ⟨k, rs', hk, hw⟩ := transact_staysAlike tr s n rs (hdraws 0)
    rw [hostRun_cons, hostRun_cons, hw]
    refine ih _ _ _ fun j => ?_
    rw [hk, Nat.add_assoc, Nat.add_assoc]
    exact hdraws (k + j)

/-! ### The invariant -/

/-- Each move of the stack keeps `SP` within the mode's capacity and the slots beyond it at 0. -/
theorem Inv.stackMove {s t : State} (h : Inv s) (hm : t.mode = s.mode) (move : StackMove s t) :
    t.sp.val ≤ stackDepth t.mode ∧ ∀ k : Fin 16, stackDepth t.mode ≤ k.val → t.stack[k] = 0#16 := by
  have hsp := h.stackPointer
  have hbeyond := h.noStackBeyond
  rw [hm]
  cases move with
  | kept stack sp => rw [stack, sp]; exact ⟨hsp, hbeyond⟩
  | popped stack sp => rw [stack, sp]; exact ⟨by omega, hbeyond⟩
  | pushed a room stack sp =>
    rw [stack, sp]
    refine ⟨room, fun k hk => ?_⟩
    have hne : s.sp.val ≠ k.val := by omega
    simpa [Vector.getElem_setIfInBounds, hne] using hbeyond k hk

/-- One more result keeps the record to cycle faults, if it is a completion or a cycle fault. -/
theorem Inv.results_cons {s t : State} (h : Inv s) {r : CycleResult}
    (hr : t.outside.results = r :: s.outside.results)
    (hcycle : ∀ f, r = .faulted f → isCycleFault f = true) : ∀ f ∈ t.outside.faults, isCycleFault f = true := by
  intro f hf
  rw [Outside.faults, hr] at hf
  cases r with
  | completed d => exact h.results f hf
  | faulted g =>
    rcases List.mem_cons.1 hf with rfl | hf
    · exact hcycle _ rfl
    · exact h.results f hf

theorem Inv.advance {s : State} (h : Inv s) : Inv s.advance :=
  ⟨h.memory, h.stackPointer, h.noStackBeyond, h.wraparound, h.results⟩

/-- A cycle within the frame that returns a completion or a cycle fault keeps the invariant. -/
theorem Inv.of_frame {s t : State} (h : Inv s) (frame : CycleFrame s t) {r : CycleResult}
    (hr : t.outside.results = r :: s.outside.results)
    (hcycle : ∀ f, r = .faulted f → isCycleFault f = true) : Inv t := by
  obtain ⟨hsp, hbeyond⟩ := h.stackMove frame.mode frame.stack
  obtain ⟨a, bs, hmem⟩ := frame.memory
  refine ⟨?_, hsp, hbeyond, ?_, h.results_cons hr hcycle⟩
  · simpa [hmem, frame.params] using storeBytes_wf bs a h.memory
  · rw [frame.wraparound, frame.params, h.wraparound]

theorem Inv.step {s t : State} (h : Inv s) (hs : Machine.step s = .next t) : Inv t := by
  obtain ⟨t', r, ht', hr, hend⟩ := step_returns (exec_of_step hs).1
  obtain rfl : t' = t := by rw [hs] at ht'; exact (Host.Outcome.next.inj ht').symm
  refine h.advance.of_frame (step_frame hs) hr ?_
  rintro f rfl
  obtain hc | ⟨f', hf', hcycle, -⟩ := hend
  · cases hc
  · cases hf'; exact hcycle

theorem Inv.storeBytes {s : State} (h : Inv s) (a : Nat) (bs : List Byte) : Inv (s.storeBytes a bs) :=
  ⟨storeBytes_wf bs a h.memory, by simpa using h.stackPointer, by simpa using h.noStackBeyond,
    by simpa using h.wraparound, by simpa using h.results⟩

/-- Power-on in any mode, on a core whose record holds cycle faults only. -/
theorem inv_powerOn (mode : Mode) {o : Outside} (h : ∀ f ∈ o.faults, isCycleFault f = true) : Inv (powerOn mode o) :=
  ⟨rfl, Nat.zero_le _, fun k _ => by simp [powerOn, State.reset], rfl, h⟩

/-- A snapshot of a core with the same parameters, beside this core's record. -/
theorem Inv.restored {snapshot s : State} (hs : Inv snapshot) (h : Inv s)
    (hp : snapshot.outside.params = s.outside.params) : Inv { snapshot with outside := s.outside } :=
  ⟨hp ▸ hs.memory, hs.stackPointer, hs.noStackBeyond, hp ▸ hs.wraparound, h.results⟩

theorem Inv.transact {tr : Transaction} {s t : State} (h : Inv s)
    (hsnap : ∀ snapshot, tr = .restore snapshot → Inv snapshot) (ht : Machine.transact tr s = .next t) : Inv t := by
  cases tr with
  | cycle => exact h.step ht
  | powerAndLoad rom mode =>
    simp only [Machine.transact, powerAndLoad] at ht
    split at ht <;> cases ht
    exact (inv_powerOn mode h.results).storeBytes _ _
  | setInput key pressed =>
    simp only [Machine.transact, setInput] at ht
    split at ht <;> cases ht
    exact ⟨h.memory, h.stackPointer, h.noStackBeyond, h.wraparound, h.results⟩
  | decrementTimers => cases ht; exact ⟨h.memory, h.stackPointer, h.noStackBeyond, h.wraparound, h.results⟩
  | readSnapshot => cases ht; exact h
  | restore snapshot =>
    simp only [Machine.transact, restore] at ht
    split at ht <;> cases ht
    next hp => exact (hsnap snapshot rfl).restored h hp

/-! ### The end of a run -/

/-- A run puts its own results on top of those it started from. -/
theorem hostRun_results (run : List Transaction) : ∀ s : State,
    ∃ new, (hostRun run s).outside.results = new ++ s.outside.results := by
  induction run with
  | nil => intro s; exact ⟨[], rfl⟩
  | cons tr run ih =>
    intro s
    obtain ⟨new, hnew⟩ := ih (afterTransaction tr s)
    rw [hostRun_cons, hnew]
    obtain hr | ⟨-, r, hr⟩ := afterTransaction_results tr s <;> rw [hr]
    · exact ⟨new, rfl⟩
    · exact ⟨new ++ [r], by simp⟩

/-- The end of a run lists the run's own results, the first one first. -/
theorem runEnd_results {run : List Transaction} {s : State} {new : List CycleResult}
    (h : (hostRun run s).outside.results = new ++ s.outside.results) : (runEnd run s).results = new.reverse := by
  simp [runEnd, readSnapshot, h]

theorem runEnd_snapshot (run : List Transaction) (s : State) : (runEnd run s).snapshot = hostRun run s := rfl

theorem hostRun_concat (run : List Transaction) (tr : Transaction) (s : State) :
    hostRun (run ++ [tr]) s = afterTransaction tr (hostRun run s) := by
  rw [hostRun_append, hostRun_cons]; rfl

/-- A transaction that leaves the results as they are adds none to the end of the run. -/
theorem runEnd_results_concat_same {run : List Transaction} {tr : Transaction} {s : State}
    (h : (afterTransaction tr (hostRun run s)).outside.results = (hostRun run s).outside.results) :
    (runEnd (run ++ [tr]) s).results = (runEnd run s).results := by
  obtain ⟨new, hnew⟩ := hostRun_results run s
  rw [runEnd_results hnew, runEnd_results (new := new)]
  rw [hostRun_concat, h, hnew]

/-- A transaction that returns a result adds it at the end. -/
theorem runEnd_results_concat_cons {run : List Transaction} {tr : Transaction} {s : State} {r : CycleResult}
    (h : (afterTransaction tr (hostRun run s)).outside.results = r :: (hostRun run s).outside.results) :
    (runEnd (run ++ [tr]) s).results = (runEnd run s).results ++ [r] := by
  obtain ⟨new, hnew⟩ := hostRun_results run s
  rw [runEnd_results hnew, runEnd_results (new := r :: new), List.reverse_cons]
  rw [hostRun_concat, h, hnew, List.cons_append]

/-! ### The statements -/

/-- Settles O18, by induction on the run: each transaction leaves the same Machine State and takes equally many
draws. -/
theorem sameMachineSameDrawsSameRun : Obligations.SameMachineSameDrawsSameRun := by
  intro run s u hsame hparams hdraws
  rw [hsame.eq_withRecord hparams]
  exact hostRun_withRecord run s _ _ hdraws

/-- Settles O21, from the frame of a cycle and the one result it returns. -/
theorem everyStepKeepsTheInvariant : Obligations.EveryStepKeepsTheInvariant := fun _ _ => Inv.step

/-- Settles O22, transaction by transaction. -/
theorem everyTransactionKeepsTheInvariant : Obligations.EveryTransactionKeepsTheInvariant := fun _ _ _ => Inv.transact

/-- Settles O16, from the frame of a cycle. -/
theorem cycleNeverWritesWhatTheHostOwns : Obligations.CycleNeverWritesWhatTheHostOwns := by
  intro s t h
  have frame := step_frame h
  exact ⟨frame.input, frame.mode, frame.powered, frame.wraparound, frame.params⟩

/-- Settles O60: a run and one more transaction is that transaction on the state where the run ended. -/
theorem runEndIsTheSnapshotAndEveryResult : Obligations.RunEndIsTheSnapshotAndEveryResult := by
  intro run s
  refine ⟨by rw [RunEnd.mk.injEq]; exact ⟨rfl, runEnd_results (new := []) rfl⟩, fun tr => ⟨?_, ?_, ?_, ?_⟩⟩
  · intro t ht
    rw [runEnd_snapshot, hostRun_concat]
    exact afterTransaction_of_next ht
  · intro hno
    have hstop : hostRun (run ++ [tr]) s = hostRun run s := by
      rw [hostRun_concat]; exact afterTransaction_of_no_next hno
    simp only [runEnd, hstop]
  · intro hne
    obtain hr | ⟨heq, -⟩ := afterTransaction_results tr (hostRun run s)
    · exact runEnd_results_concat_same hr
    · exact absurd heq hne
  · rintro rfl hp
    obtain ⟨t, r, ht, hr, hend⟩ := step_returns hp
    have hafter : afterTransaction .cycle (hostRun run s) = t := afterTransaction_of_next ht
    refine ⟨r, runEnd_results_concat_cons (hafter ▸ hr), ?_⟩
    rw [runEnd_snapshot, hostRun_concat, hafter]
    exact ⟨by rw [Outside.result, hr]; rfl, hend.imp_right fun ⟨f, hf, _⟩ => ⟨f, hf⟩⟩

/-- Settles O58, by whether the key names a latch. -/
theorem setInputWritesOneLatch : Obligations.SetInputWritesOneLatch := by
  intro s key pressed
  constructor
  · intro hkey
    refine ⟨_, if_pos hkey, rfl, fun k => ?_⟩
    simp [Vector.getElem_setIfInBounds, eq_comm]
  · intro hkey
    exact if_neg (Nat.not_lt.2 hkey)

end Sys2Proof.Machine

/-! The statement of spec/20_memory.md: the word `withFetchWord` places at `PC` is the word the next step fetches, and
the core it is placed on decodes it as the table does. -/

namespace Sys2Proof

/-! ### Where `SCROLL_UP_ENABLED` matters to the decoder -/

/-- Only the words `0?DN` are read by the parameter `SCROLL_UP_ENABLED` (30_encoding.md R66, D5). -/
theorem decode_eq_decode_true {scrollUp : Bool} {w : Word}
    (h : fieldT w = 0x0#4 → fieldY w = 0xD#4 → scrollUp = true) : decode scrollUp w = decode true w := by
  by_cases ht : fieldT w = 0x0#4
  · have hscu : (fieldY w = 0xD#4 ∧ scrollUp = true) ↔ fieldY w = 0xD#4 := and_iff_left_of_imp (h ht)
    simp [decode, decode0, ht, hscu]
  · unfold decode
    split
    · contradiction
    all_goals rfl

end Sys2Proof

namespace Sys2Proof.Machine

variable (s : State)

/-! ### The state a table word is placed in -/

theorem advance_eq : s.advance = { s with pc := BitVec.ofNat 16 (s.pc.toNat + 2) } := by
  simp [State.advance, State.setPc, BitVec.ofNat_add]

@[simp] theorem withFetchWord_powered (nbits w : Nat) : (s.withFetchWord nbits w).powered = true := rfl

@[simp] theorem withFetchWord_pc (nbits w : Nat) : (s.withFetchWord nbits w).pc = s.pc := rfl

/-- A core given a word `0?DN` has the row SCU N (R145; log 8). -/
theorem withFetchWord_scrollUpEnabled {nbits w : Nat} (ht : fieldT (tableWord nbits w) = 0x0#4)
    (hy : fieldY (tableWord nbits w) = 0xD#4) :
    (s.withFetchWord nbits w).outside.params.scrollUpEnabled = true := by
  rw [fieldT] at ht
  rw [fieldY] at hy
  simp [State.withFetchWord, ht, hy]

/-- Memory reads as the two stores left it: `SCROLL_UP_ENABLED` is no part of what memory holds. -/
theorem withFetchWord_memRead (nbits w a : Nat) :
    (s.withFetchWord nbits w).memRead a
      = (s.storeBytes s.pc.toNat [highByte (tableWord nbits w), lowByte (tableWord nbits w)]).memRead a := rfl

/-- The next fetch reads the placed word, at every `PC` (R50, R51). -/
theorem fetch_withFetchWord (nbits w : Nat) : (s.withFetchWord nbits w).fetch = tableWord nbits w := by
  have hread := memRead_storeBytes [highByte (tableWord nbits w), lowByte (tableWord nbits w)] (by simp) s s.pc.toNat
  have hhigh := hread 0 (by simp)
  have hlow := hread 1 (by simp)
  simp only [Nat.add_zero, List.getElem_cons_zero, List.getElem_cons_succ] at hhigh hlow
  rw [State.fetch, withFetchWord_pc, withFetchWord_memRead, withFetchWord_memRead, hhigh, hlow, wordOfBytes_bytes]

/-- The core reads the placed word as the table does. -/
theorem decode_fetch_withFetchWord (nbits w : Nat) :
    decode (s.withFetchWord nbits w).outside.params.scrollUpEnabled (s.withFetchWord nbits w).fetch
      = decode true (tableWord nbits w) := by
  rw [fetch_withFetchWord]
  exact decode_eq_decode_true (withFetchWord_scrollUpEnabled s)

/-! ### The statement -/

/-- Settles O9: the step fetches the placed word and decodes it as the table does. -/
theorem placedWordIsRunByTheNextStep : Obligations.PlacedWordIsRunByTheNextStep := by
  intro s w _
  refine ⟨decode true (tableWord 16 w), by rw [decodeTableWord, wordOfBytes_bytes], ?_⟩
  rw [step_of_powered (withFetchWord_powered s 16 w), decode_fetch_withFetchWord, advance_eq, withFetchWord_pc]

end Sys2Proof.Machine

/-! The statement of spec/30_encoding.md on the whole word space: each group of the decoder (R63) reads its words as a
well-formed instruction that encodes back to the word, and decoding the word of a well-formed instruction gives it back, so no
word has two readings. -/

namespace Sys2Proof

variable {w : Word} {scrollUp : Bool}

/-! ### A word built from its own fields -/

theorem nibbles_eq_of_fields {t n : Nibble} (ht : fieldT w = t) (hn : fieldN w = n) :
    nibbles t (fieldX w) (fieldY w) n = w := by
  rw [← ht, ← hn, nibbles_fields]

theorem nibblesByte_eq_of_fields {t : Nibble} {nn : Byte} (ht : fieldT w = t) (hnn : fieldNN w = nn) :
    nibblesByte t (fieldX w) nn = w := by
  rw [← ht, ← hnn, nibblesByte_fields]

theorem nibbleAddr_eq_of_fieldT {t : Nibble} (ht : fieldT w = t) : nibbleAddr t (fieldNNN w) = w := by
  rw [← ht, nibbleAddr_fields]

/-! ### The fields that overlap (R61) -/

/-- `NN` is the lower byte of `NNN`. -/
@[simp] theorem fieldNNN_lowByte (w : Word) : (fieldNNN w).extractLsb' 0 8 = fieldNN w := by
  apply BitVec.eq_of_toNat_eq
  simp only [BitVec.extractLsb'_toNat, fieldNNN_toNat, fieldNN_toNat, Nat.shiftRight_eq_div_pow]; omega

/-- `Y` is the upper nibble of `NN`. -/
@[simp] theorem fieldNN_highNibble (w : Word) : (fieldNN w).extractLsb' 4 4 = fieldY w := by
  apply BitVec.eq_of_toNat_eq
  simp only [BitVec.extractLsb'_toNat, fieldNN_toNat, fieldY_toNat, Nat.shiftRight_eq_div_pow]; omega

/-- A word with another upper nibble in `NN` than `nn` is no word of the row of `nn`. -/
theorem fieldNN_nibbles_ne {t x y n : Nibble} {nn : Byte} (h : y ≠ nn.extractLsb' 4 4) :
    fieldNN (nibbles t x y n) ≠ nn := by
  rintro rfl
  exact h (by rw [fieldNN_highNibble, fieldY_nibbles])

@[simp] theorem fieldNN_nibbleAddr (t : Nibble) (nnn : Addr) : fieldNN (nibbleAddr t nnn) = nnn.extractLsb' 0 8 := by
  rw [← fieldNNN_lowByte, fieldNNN_nibbleAddr]

/-! ### Every word is read as a well-formed instruction that encodes to it -/

/-- `i` is a reading of the word `w`: one of the terms of `Instr.wf`, with `w` as its word. -/
def IsReading (scrollUp : Bool) (w : Word) (i : Instr) : Prop := i.wf scrollUp = true ∧ encode i = w

theorem decode0_isReading (ht : fieldT w = 0x0#4) : IsReading scrollUp w (decode0 scrollUp w) := by
  have row {nn : Byte} (h : fieldNN w = nn) := nibblesByte_eq_of_fields ht h
  simp only [decode0]
  split_ifs with hE0 hEE hFB hFC hFE hFF hC hD
  · exact ⟨rfl, row hE0⟩
  · exact ⟨rfl, row hEE⟩
  · exact ⟨rfl, row hFB⟩
  · exact ⟨rfl, row hFC⟩
  · exact ⟨rfl, row hFE⟩
  · exact ⟨rfl, row hFF⟩
  · exact ⟨rfl, by rw [encode, ← ht, ← hC, nibbles_fields]⟩
  · exact ⟨hD.2, by rw [encode, ← ht, ← hD.1, nibbles_fields]⟩
  · have hretry : recognised0 scrollUp (fieldNN w) = false := by
      simpa [recognised0, hE0, hEE, hFB, hFC, hFE, hFF, hC, imp_iff_not_or] using hD
    exact ⟨by simp [Instr.wf, hretry], nibbleAddr_eq_of_fieldT ht⟩

theorem decode5_isReading (ht : fieldT w = 0x5#4) : IsReading scrollUp w (decode5 w) := by
  unfold decode5
  split_ifs with hn
  · exact ⟨rfl, nibbles_eq_of_fields ht hn⟩
  · exact ⟨decide_eq_true hn, nibbles_eq_of_fields ht rfl⟩

theorem decode9_isReading (ht : fieldT w = 0x9#4) : IsReading scrollUp w (decode9 w) := by
  unfold decode9
  split_ifs with hn
  · exact ⟨rfl, nibbles_eq_of_fields ht hn⟩
  · exact ⟨decide_eq_true hn, nibbles_eq_of_fields ht rfl⟩

theorem decodeE_isReading (ht : fieldT w = 0xE#4) : IsReading scrollUp w (decodeE w) := by
  simp only [decodeE]
  split_ifs with h9E hA1
  · exact ⟨rfl, nibblesByte_eq_of_fields ht h9E⟩
  · exact ⟨rfl, nibblesByte_eq_of_fields ht hA1⟩
  · exact ⟨by simp [Instr.wf, recognisedE, h9E, hA1], nibblesByte_eq_of_fields ht rfl⟩

theorem decode8_isReading (ht : fieldT w = 0x8#4) : IsReading scrollUp w (decode8 w) := by
  have row {n : Nibble} (h : fieldN w = n) := nibbles_eq_of_fields ht h
  unfold decode8
  split
  case h_16 =>
    have hF : fieldN w = 0xF#4 := by
      simp only [imp_false] at *
      bv_omega
    exact ⟨rfl, row hF⟩
  all_goals exact ⟨rfl, row ‹_›⟩

theorem decodeF_isReading (ht : fieldT w = 0xF#4) : IsReading scrollUp w (decodeF w) := by
  unfold decodeF
  split
  case h_13 => exact ⟨by simp_all [Instr.wf, recognisedF], nibblesByte_eq_of_fields ht rfl⟩
  all_goals exact ⟨rfl, nibblesByte_eq_of_fields ht ‹_›⟩

theorem decode_isReading (scrollUp : Bool) (w : Word) : IsReading scrollUp w (decode scrollUp w) := by
  unfold decode
  split
  case h_1 ht => exact decode0_isReading ht
  case h_6 ht => exact decode5_isReading ht
  case h_9 ht => exact decode8_isReading ht
  case h_10 ht => exact decode9_isReading ht
  case h_15 ht => exact decodeE_isReading ht
  case h_16 =>
    have ht : fieldT w = 0xF#4 := by
      simp only [imp_false] at *
      bv_omega
    exact decodeF_isReading ht
  case h_2 ht | h_3 ht | h_11 ht | h_12 ht => exact ⟨rfl, nibbleAddr_eq_of_fieldT ht⟩
  case h_14 ht => exact ⟨rfl, nibbles_eq_of_fields ht rfl⟩
  all_goals exact ⟨rfl, nibblesByte_eq_of_fields ‹_› rfl⟩

/-! ### The word of a well-formed instruction is read back as it -/

theorem decode0_scd (u n : Nibble) : decode0 scrollUp (nibbles 0x0#4 u 0xC#4 n) = .scd u n := by
  simp [decode0, fieldNN_nibbles_ne]

theorem decode0_scu (u n : Nibble) : decode0 true (nibbles 0x0#4 u 0xD#4 n) = .scu u n := by
  simp [decode0, fieldNN_nibbles_ne]

theorem decode0_of_not_recognised (h : recognised0 scrollUp (fieldNN w) = false) :
    decode0 scrollUp w = .retry0 (fieldNNN w) := by
  simp_all [decode0, recognised0]

theorem decodeE_of_not_recognised (h : recognisedE (fieldNN w) = false) :
    decodeE w = .illegalE (fieldX w) (fieldNN w) := by
  simp_all [decodeE, recognisedE]

theorem decodeF_of_not_recognised (h : recognisedF (fieldNN w) = false) :
    decodeF w = .illegalF (fieldX w) (fieldNN w) := by
  unfold decodeF
  split
  case h_13 => rfl
  all_goals simp_all [recognisedF]

/-- Decoding takes the word of a well-formed instruction back to it; only the rows that yield to another row, and SCU, use
the condition (R65). -/
theorem decode_encode {i : Instr} (h : i.wf scrollUp = true) : decode scrollUp (encode i) = i := by
  cases i with
  | scd u n => simpa [encode, decode] using decode0_scd u n
  | scu u n =>
    obtain rfl : scrollUp = true := h
    simpa [encode, decode] using decode0_scu u n
  | retry0 nnn =>
    simpa [encode, decode] using decode0_of_not_recognised (w := nibbleAddr 0x0#4 nnn) (by simpa [Instr.wf] using h)
  | illegal5 x y n => simpa [encode, decode, decode5, Instr.wf] using h
  | illegal9 x y n => simpa [encode, decode, decode9, Instr.wf] using h
  | illegalE x nn =>
    simpa [encode, decode] using decodeE_of_not_recognised (w := nibblesByte 0xE#4 x nn) (by simpa [Instr.wf] using h)
  | illegalF x nn =>
    simpa [encode, decode] using decodeF_of_not_recognised (w := nibblesByte 0xF#4 x nn) (by simpa [Instr.wf] using h)
  | _ => simp [encode, decode, decode0, decode5, decode8, decode9, decodeE, decodeF]

theorem IsReading.eq_decode {i : Instr} (h : IsReading scrollUp w i) : i = decode scrollUp w := by
  obtain ⟨hwf, rfl⟩ := h
  exact (decode_encode hwf).symm

/-- Settles O2: the decoder's answer is a reading of the word, and every reading is the decoder's answer. -/
theorem everyWordIsOneWellFormedInstruction : Obligations.EveryWordIsOneWellFormedInstruction := by
  intro scrollUp w
  obtain ⟨hwf, hword⟩ := decode_isReading scrollUp w
  exact ⟨hwf, hword, fun i hi hw => IsReading.eq_decode ⟨hi, hw⟩⟩

end Sys2Proof

/-! The statements of spec/40_dispatch.md: what a cycle runs, that it always ends, where it leaves `PC`, and what a retry
changes. One case split over `exec` says where every instruction leaves `PC` (`exec_pc`). -/

namespace Sys2Proof.Machine

variable {w : Word} {scrollUp : Bool} {s t : State}

/-! ### Words whose row the statements name by number -/

theorem fieldT_eq_of_toNat {t : Nibble} (h : w.toNat / 4096 = t.toNat) : fieldT w = t :=
  BitVec.eq_of_toNat_eq (by rw [fieldT_toNat, h])

theorem decode_jp (h : w.toNat / 4096 = 1) : decode scrollUp w = .jp (fieldNNN w) := by
  simp [decode, fieldT_eq_of_toNat (t := 0x1#4) h]

theorem decode_call (h : w.toNat / 4096 = 2) : decode scrollUp w = .call (fieldNNN w) := by
  simp [decode, fieldT_eq_of_toNat (t := 0x2#4) h]

theorem decode_jpV0 (h : w.toNat / 4096 = 0xB) : decode scrollUp w = .jpV0 (fieldNNN w) := by
  simp [decode, fieldT_eq_of_toNat (t := 0xB#4) h]

theorem decode_ldVxK (hT : w.toNat / 4096 = 0xF) (hNN : w.toNat % 256 = 0x0A) :
    decode scrollUp w = .ldVxK (fieldX w) := by
  have hnn : fieldNN w = 0x0A#8 := BitVec.eq_of_toNat_eq (by rw [fieldNN_toNat, hNN]; rfl)
  simp [decode, decodeF, fieldT_eq_of_toNat (t := 0xF#4) hT, hnn]

/-- The retry words, listed by ranges of `NN` in the spec and by its upper nibble `Y` in the model, are those of the
0x0 group that no other row takes (R66). -/
theorem isRetryWord_iff :
    isRetryWord scrollUp w = true ↔ fieldT w = 0x0#4 ∧ recognised0 scrollUp (fieldNN w) = false := by
  have hY : w.toNat / 16 % 16 = w.toNat % 256 / 16 := by omega
  have hC (nn : Nat) : ¬nn / 16 = 0xC ↔ nn < 0xC0 ∨ 0xCF < nn := by omega
  have hD (nn : Nat) : ¬nn / 16 = 0xD ↔ nn < 0xD0 ∨ 0xDF < nn := by omega
  cases scrollUp <;>
    simp [isRetryWord, recognised0, ← BitVec.toNat_inj, fieldT_toNat, fieldY_toNat, fieldNN_toNat, hY, hC, hD, and_assoc]

theorem decode_retry0 (h : isRetryWord scrollUp w = true) : decode scrollUp w = .retry0 (fieldNNN w) := by
  obtain ⟨ht, hnn⟩ := isRetryWord_iff.1 h
  simp [decode, ht, decode0_of_not_recognised hnn]

/-! ### What a cycle runs -/

/-- The fetched word, by its number (R72). -/
theorem fetch_eq_of_toNat
    (h : w.toNat = (s.memRead s.pc.toNat).toNat * 256 + (s.memRead (s.pc.toNat + 1)).toNat) : s.fetch = w :=
  BitVec.eq_of_toNat_eq (by rw [State.fetch, wordOfBytes_toNat, h])

/-! ### Retries -/

/-- A retry takes the provisional advance back (R82). -/
@[simp] theorem retry_advance (s : State) : s.advance.retry = s := by
  simp [State.retry, State.advance, State.setPc]

/-- The search for a key finds none exactly when no latch is set (R125). -/
theorem leastKeyDown_eq_none_iff : leastKeyDown s = none ↔ ∀ k : Fin 16, s.input[k] = false := by
  simp only [leastKeyDown, List.find?_eq_none, List.mem_range, Fin.forall_iff, Bool.not_eq_true]
  exact forall₂_congr fun k hk => by simp [Vector.getD, hk]

theorem exec_ldVxK_of_no_key (x : Reg) (h : ∀ k : Fin 16, s.input[k] = false) :
    exec (.ldVxK x) s = complete false s.retry := by
  simp only [exec, execLdVxK, leastKeyDown_eq_none_iff.2 h]

/-! ### Where a cycle leaves `PC` -/

theorem complete_pc {d : Bool} {u : State} (h : complete d u = .next t) : t.pc = u.pc := by cases h; rfl

theorem raise_pc {f : Fault} {u : State} (h : raise f u = .next t) : t.pc = u.pc := by cases h; rfl

theorem any_input_eq_false_iff : s.input.toList.any (fun down => down) = false ↔ ∀ k : Fin 16, s.input[k] = false := by
  simp [Fin.forall_iff, Vector.any_eq_false]

/-- FX0A waits exactly while no key is down (R125). -/
theorem netPc_ldVxK (x : Reg) :
    netPc (.ldVxK x) s = if ∀ k : Fin 16, s.input[k] = false then s.pc else s.pc + 2#16 := by
  simp only [netPc, ← any_input_eq_false_iff]
  cases s.input.toList.any (fun down => down) <;> rfl

theorem addrOperand_eq (nnn : Addr) : addrOperand nnn = BitVec.ofNat 16 nnn.toNat := by
  apply BitVec.eq_of_toNat_eq
  simp [addrOperand]

/-- The table of R79, instruction by instruction: after the provisional advance `exec` leaves `PC` where it says. -/
theorem exec_pc {i : Instr} (h : exec i s.advance = .next t) : t.pc = netPc i s := by
  cases i
  case ret u =>
    simp only [exec, execRet] at h
    split at h
    next hempty => rw [raise_pc h]; exact (if_pos hempty).symm
    next hentry => rw [complete_pc h, setPc_pc]; exact (if_neg hentry).symm
  case call nnn =>
    simp only [exec, execCall] at h
    split at h
    next hfull => rw [raise_pc h]; exact (if_neg (Nat.not_lt.2 hfull)).symm
    next hroom => rw [complete_pc h, setPc_pc, addrOperand_eq]; exact (if_pos (Nat.not_le.1 hroom)).symm
  case ldVxK x =>
    simp only [exec, execLdVxK] at h
    split at h
    next k hdown =>
      have hkey : ¬ ∀ k : Fin 16, s.input[k] = false := fun hnone =>
        nomatch hdown.symm.trans (leastKeyDown_eq_none_iff.2 hnone)
      rw [complete_pc h, netPc_ldVxK, if_neg hkey]
      rfl
    next hnone =>
      have hkeys : ∀ k : Fin 16, s.input[k] = false := (leastKeyDown_eq_none_iff (s := s)).1 hnone
      rw [complete_pc h, retry_advance, netPc_ldVxK, if_pos hkeys]
  case drw x y n =>
    simp only [exec, execDrw] at h
    split at h <;> exact complete_pc h
  case illegal5 | illegal8XY8 | illegal8XY9 | illegal8XYA | illegal8XYB | illegal8XYC | illegal8XYD | illegal8XYF
      | illegal9 | illegalE | illegalF => exact raise_pc h
  case seImm | sneImm | seReg | sneReg | skp | sknp =>
    rw [complete_pc h, skipIf_pc, advance_pc, BitVec.add_assoc]
    rfl
  case jp => exact (complete_pc h).trans (addrOperand_eq _)
  case jpV0 nnn =>
    have hoffset : jumpOffsetOperand s.advance nnn = jumpOffsetOperand s nnn := rfl
    rw [complete_pc h, setPc_pc, hoffset]
    simp [netPc, addrOperand_eq, BitVec.ofNat_add]
  case retry0 => simpa [netPc] using complete_pc h
  -- Every other instruction completes where the provisional advance left `PC`.
  all_goals
    rw [complete_pc h]
    simp [netPc]

/-- Where every cycle leaves `PC` (R79). -/
theorem step_pc (h : step s = .next t) : t.pc = netPc (decode s.outside.params.scrollUpEnabled s.fetch) s :=
  exec_pc (exec_of_step h).2

/-! ### The words of R80 -/

/-- The instructions that can leave `PC` elsewhere than 2 or 4 bytes on: the transfers and the retries. -/
def transfersOrRetries : Instr → Bool
  | .jp _ | .call _ | .ret _ | .jpV0 _ | .ldVxK _ | .retry0 _ => true
  | _ => false

theorem netPc_of_not_transfersOrRetries {i : Instr} (h : transfersOrRetries i = false) :
    netPc i s = s.pc + 2#16 ∨ netPc i s = s.pc + 4#16 := by
  cases i
  case jp | call | ret | jpV0 | ldVxK | retry0 => cases h
  case seImm | sneImm | seReg | sneReg | skp | sknp => exact (ite_eq_or_eq _ _ _).symm
  all_goals exact .inl rfl

/-- Their words stand in the groups 0x0, 0x1, 0x2 and 0xB, and in the row FX0A (30_encoding.md R65). -/
theorem encode_of_transfersOrRetries {i : Instr} (h : transfersOrRetries i = true) :
    (encode i).toNat / 4096 ≤ 2 ∨ (encode i).toNat / 4096 = 0xB
      ∨ (encode i).toNat / 4096 = 0xF ∧ (encode i).toNat % 256 = 0x0A := by
  cases i
  case jp nnn | call nnn | jpV0 nnn | retry0 nnn => simp only [encode, nibbleAddr_toNat, BitVec.toNat_ofNat]; omega
  case ret x | ldVxK x => simp only [encode, nibblesByte_toNat, BitVec.toNat_ofNat]; omega
  all_goals cases h

theorem netPc_jp_toNat (nnn : Addr) : (netPc (.jp nnn) s).toNat = nnn.toNat := by
  simp only [netPc, BitVec.toNat_ofNat]
  omega

theorem netPc_call_toNat (nnn : Addr) (hroom : s.sp.val < stackDepth s.mode) :
    (netPc (.call nnn) s).toNat = nnn.toNat := by
  simp only [netPc, hroom, if_true, BitVec.toNat_ofNat]
  omega

theorem netPc_jpV0_toNat (nnn : Addr) :
    (netPc (.jpV0 nnn) s).toNat = nnn.toNat + (jumpOffsetOperand s nnn).toNat := by
  simp only [netPc, BitVec.toNat_ofNat]
  omega

/-- The register BNNN adds: `V[0]`, or `V[X]` of the word in Schip mode (R94). -/
theorem jumpOffsetOperand_fieldNNN (s : State) (w : Word) : jumpOffsetOperand s (fieldNNN w)
    = if s.mode = .schip then s.reg (BitVec.ofNat 4 (w.toNat / 256)) else s.reg 0#4 := by
  have hx : topNibble (fieldNNN w) = BitVec.ofNat 4 (w.toNat / 256) := by
    apply BitVec.eq_of_toNat_eq
    simp [topNibble, fieldNNN_toNat, Nat.shiftRight_eq_div_pow]
    omega
  cases hm : s.mode <;> simp [jumpOffsetOperand, jumpOffset, hm, hx]

/-! ### The statements -/

/-- Settles O8: every execution of a powered core returns one result. -/
theorem coreStepsExactlyWhenPowered : Obligations.CoreStepsExactlyWhenPowered := by
  intro s
  refine ⟨fun hp => ?_, fun hp => if_neg (by simp [hp])⟩
  obtain ⟨t, r, ht, hr, rfl | ⟨f, rfl, -⟩⟩ := step_returns hp
  · exact ⟨t, ht, .inl hr⟩
  · exact ⟨t, ht, .inr ⟨f, hr⟩⟩

/-- Settles O13: the table of R79, read at the words of R80. -/
theorem pcAdvancesByTwoOrFourOutsideTransfers : Obligations.PcAdvancesByTwoOrFourOutsideTransfers := by
  intro s t h _ hrange
  rw [step_pc h]
  split
  next hjp => rw [decode_jp hjp, netPc_jp_toNat, fieldNNN_toNat]
  split
  next hcall =>
    intro hroom
    rw [decode_call hcall, netPc_call_toNat _ hroom, fieldNNN_toNat]
  split
  next hjpV0 => rw [decode_jpV0 hjpV0, netPc_jpV0_toNat, fieldNNN_toNat, jumpOffsetOperand_fieldNNN]
  split
  next hkey =>
    obtain ⟨hT, hNN⟩ := hkey
    rw [decode_ldVxK hT hNN, netPc_ldVxK]
    refine ⟨fun hnone => if_pos hnone, fun ⟨k, hdown⟩ => ?_⟩
    have hsome : ¬ ∀ k : Fin 16, s.input[k] = false := fun hnone => by simp [hnone k] at hdown
    rw [if_neg hsome, BitVec.toNat_add]
    rfl
  next hjp hcall hjpV0 hkey =>
    have hother : transfersOrRetries (decode s.outside.params.scrollUpEnabled s.fetch) = false := by
      by_contra hsome
      have hword := encode_of_transfersOrRetries (Bool.eq_true_of_not_eq_false hsome)
      rw [(decode_isReading _ _).2] at hword
      omega
    obtain htwo | hfour := netPc_of_not_transfersOrRetries (s := s) hother
    · rw [htwo]; exact .inl (BitVec.toNat_add _ _)
    · rw [hfour]; exact .inr (BitVec.toNat_add _ _)

/-- Settles O14: both retries complete with `PC` moved back to the word fetched. -/
theorem retryChangesNothingButDraw : Obligations.RetryChangesNothingButDraw := by
  intro s hp hretry
  have hstep : step s = complete false s := by
    rw [step_of_powered hp]
    obtain hword | ⟨hT, hNN, hkeys⟩ := hretry
    · rw [decode_retry0 hword, exec, execRetry0, retry_advance]
    · rw [decode_ldVxK hT hNN, exec_ldVxK_of_no_key (s := s.advance) _ hkeys, retry_advance]
  exact ⟨_, hstep, rfl, rfl⟩

/-- Settles O6: the word with that number is the fetched word. -/
theorem cycleFetchesAdvancesDecodesAndExecutes : Obligations.CycleFetchesAdvancesDecodesAndExecutes := by
  intro s w hp hw
  rw [step_of_powered hp, fetch_eq_of_toNat hw, advance_eq]

/-- Settles O7: the decoder takes the word of a well-formed instruction back to it. -/
theorem stepRunsTheDecodedInstruction : Obligations.StepRunsTheDecodedInstruction := by
  intro s i hp hwf hw
  rw [step_of_powered hp, fetch_eq_of_toNat hw, decode_encode hwf, advance_eq]

end Sys2Proof.Machine

/-! BNNN of spec/41_control.md: one more use of the table of R79 (`netPc`), which already holds the unmasked sum. -/

namespace Sys2Proof.Machine

/-- The register BNNN adds, read off the address operand (R94): the top nibble is that of the word whose group nibble
is 0. -/
theorem jumpOffsetOperand_eq (s : State) (nnn : Addr) : jumpOffsetOperand s nnn
    = if s.mode = .schip then s.reg (BitVec.ofNat 4 (nnn.toNat / 256)) else s.reg 0#4 := by
  have hword : (nibbleAddr 0x0#4 nnn).toNat = nnn.toNat := (nibbleAddr_toNat _ _).trans (by simp)
  simpa only [fieldNNN_nibbleAddr, hword] using jumpOffsetOperand_fieldNNN s (nibbleAddr 0x0#4 nnn)

/-- A cycle that completes after a write of `PC` changes nothing else. -/
theorem complete_setPc_spec (d : Bool) (s : State) (p : Word) : ∃ t, complete d (s.setPc p) = .next t
    ∧ Completed d s t ∧ Keeps { pc := true } s t ∧ t.pc = p := by
  obtain ⟨t, ht, hcompleted, hkeeps, -⟩ := complete_spec (d := d) (s := s) (u := s.setPc p) rfl (keeps_setPc s p)
  exact ⟨t, ht, hcompleted, hkeeps, complete_pc ht⟩

/-- BNNN writes `PC` and nothing else: the entry of its row in the table of R79. -/
theorem exec_jpV0 (s : State) (nnn : Addr) :
    exec (.jpV0 nnn) s = complete false (s.setPc (netPc (.jpV0 nnn) s)) := by
  have hsum : addrOperand nnn + (jumpOffsetOperand s nnn).zeroExtend 16 = netPc (.jpV0 nnn) s := by
    simp [netPc, addrOperand_eq, BitVec.ofNat_add]
  exact congrArg (fun pc => complete false (s.setPc pc)) hsum

/-- Settles O30: a completed write of `PC`, whose value is the sum with the register that the mode selects. -/
theorem jpV0AddsTheOffsetRegister : Obligations.JpV0AddsTheOffsetRegister := by
  intro s nnn
  refine ⟨nibbleAddr_toNat 0xB#4 nnn, ?_⟩
  obtain ⟨t, ht, hcompleted, hkeeps, hpc⟩ := complete_setPc_spec false s (netPc (.jpV0 nnn) s)
  refine ⟨t, (exec_jpV0 s nnn).trans ht, hcompleted, hkeeps, ?_⟩
  rw [hpc, netPc_jpV0_toNat, jumpOffsetOperand_eq]

end Sys2Proof.Machine

/-! The statements of spec/42_alu.md. The family completes after one of four updates: a register, a result with its flag, a
result with the reset of `VF`, a draw with a register. What a cycle leaves after each of them is said once
(`complete_setReg_spec`, `complete_setResultFlag_spec`, `complete_bitwise_spec`, `complete_drawTaken_spec`); each
instruction then adds the number or the bits of its result. -/

namespace Sys2Proof.Machine

/-! ### What a completed cycle leaves in the registers -/

theorem complete_reg {d : Bool} {u t : State} (h : complete d u = .next t) (r : Reg) : t.reg r = u.reg r := by
  cases h; rfl

/-- A cycle that completes after a write of one register. -/
theorem complete_setReg_spec (d : Bool) (s : State) (x : Reg) (b : Byte) : ∃ t, complete d (s.setReg x b) = .next t
    ∧ Completed d s t ∧ Keeps { regs := [x] } s t ∧ t.reg x = b := by
  obtain ⟨t, ht, hcompleted, hkeeps, -⟩ := complete_spec (d := d) (s := s) (by simp) (keeps_setReg s x b)
  exact ⟨t, ht, hcompleted, hkeeps, by rw [complete_reg ht, reg_setReg_same]⟩

/-- A cycle that completes after a result and its flag, both given by their numbers: with `X = F` the flag stays (D9). -/
theorem complete_setResultFlag_spec (d : Bool) (s : State) (x : Reg) {result flag : Byte} {m n : Nat}
    (hresult : result.toNat = m) (hflag : flag.toNat = n) : ∃ t, complete d (s.setResultFlag x result flag) = .next t
    ∧ Completed d s t ∧ Keeps { regs := [x, vf] } s t ∧ (x ≠ vf → (t.reg x).toNat = m) ∧ (t.reg vf).toNat = n := by
  obtain ⟨t, ht, hcompleted, hkeeps, -⟩ :=
    complete_spec (d := d) (s := s) (by simp) (keeps_setResultFlag s x result flag)
  refine ⟨t, ht, hcompleted, hkeeps, fun hx => ?_, ?_⟩
  · rw [complete_reg ht, reg_setResultFlag, if_neg hx, if_pos rfl, hresult]
  · rw [complete_reg ht, reg_setResultFlag, if_pos rfl, hflag]

theorem logicVfReset_setReg (s : State) (x : Reg) (b : Byte) : logicVfReset (s.setReg x b) = logicVfReset s := rfl

theorem reg_logicReset_setReg (s : State) (x : Reg) (b : Byte) (r : Reg) : (s.setReg x b).logicReset.reg r
    = if r = vf ∧ logicVfReset s = true then 0#8 else if r = x then b else s.reg r := by
  rw [reg_logicReset, logicVfReset_setReg, reg_setReg]

theorem keeps_logicReset_setReg (s : State) (x : Reg) (b : Byte) :
    Keeps { regs := [x, vf] } s (s.setReg x b).logicReset := by
  constructor <;> simp
  intro r hx hvf
  simp [reg_logicReset_setReg, hx, hvf]

theorem keeps_drawTaken_setReg (s : State) (x : Reg) (b : Byte) :
    Keeps { regs := [x], draws := true } s (s.drawTaken.setReg x b) := by
  constructor <;> simp
  intro r hr
  simp [reg_setReg, hr]

/-- A cycle that completes after one draw and a write of one register. -/
theorem complete_drawTaken_spec (d : Bool) (s : State) (x : Reg) (b : Byte) :
    ∃ t, complete d (s.drawTaken.setReg x b) = .next t ∧ Completed d s t ∧ Keeps { regs := [x], draws := true } s t
      ∧ t.outside.draws = s.outside.draws + 1 ∧ t.reg x = b := by
  obtain ⟨t, ht, hcompleted, hkeeps, -, hdraws⟩ :=
    complete_spec (d := d) (s := s) (by simp) (keeps_drawTaken_setReg s x b)
  exact ⟨t, ht, hcompleted, hkeeps, hdraws, by rw [complete_reg ht, reg_setReg_same]⟩

/-! ### Numbers of results and flags -/

theorem sub_toNat_byte (a b : Byte) : (a - b).toNat = (a.toNat + 256 - b.toNat) % 256 := by
  rw [BitVec.toNat_sub]; omega

theorem flagByte_toNat (b : Bool) : (flagByte b).toNat = b.toNat := by cases b <;> rfl

theorem flagByte_decide_toNat (p : Prop) [Decidable p] : (flagByte (decide p)).toNat = if p then 1 else 0 := by
  rw [flagByte_toNat]; split <;> simp [*]

theorem carryFlag_toNat (a b : Byte) : (carryFlag a b).toNat = if a.toNat + b.toNat > 255 then 1 else 0 :=
  flagByte_decide_toNat _

theorem notBorrowFlag_toNat (a b : Byte) : (notBorrowFlag a b).toNat = if a.toNat ≥ b.toNat then 1 else 0 :=
  flagByte_decide_toNat _

/-- A flag holds 1 exactly when its condition does. -/
theorem eq_one_iff_of_toNat_eq_ite {f : Byte} {p : Prop} [Decidable p] (h : f.toNat = if p then 1 else 0) :
    f = 1#8 ↔ p := by
  rw [← BitVec.toNat_inj, h]
  split <;> simp [*]

/-- The source of a shift is `V[X]` in Schip mode and `V[Y]` in the others (10_state.md R27). -/
theorem shiftOperand_eq (s : State) (x y : Reg) :
    shiftOperand s x y = if s.mode = .schip then s.reg x else s.reg y := by
  cases hm : s.mode <;> simp [shiftOperand, shiftSource, hm]

theorem shiftRight_one_toNat (b : Byte) : (b >>> 1).toNat = b.toNat / 2 := by
  rw [BitVec.toNat_ushiftRight, Nat.shiftRight_eq_div_pow]

theorem shiftLeft_one_toNat (b : Byte) : (b <<< 1).toNat = b.toNat * 2 % 256 := by
  rw [BitVec.toNat_shiftLeft, Nat.shiftLeft_eq]

theorem shiftedOutRight_toNat (b : Byte) : (shiftedOutRight b).toNat = b.toNat % 2 := by
  rw [shiftedOutRight, flagByte_toNat, BitVec.getLsbD, Nat.toNat_testBit]; omega

theorem shiftedOutLeft_toNat (b : Byte) : (shiftedOutLeft b).toNat = b.toNat / 128 := by
  rw [shiftedOutLeft, flagByte_toNat, BitVec.getLsbD, Nat.toNat_testBit]; omega

/-! ### OR, AND and XOR -/

theorem nibbles_arithmetic_toNat (x y n : Nibble) :
    (nibbles 0x8#4 x y n).toNat = 0x8000 + 0x100 * x.toNat + 0x10 * y.toNat + n.toNat := by
  rw [nibbles_toNat, BitVec.toNat_ofNat]; omega

/-- With the default parameters the policy is that of CosmacVIP alone (90_conflicts.md C1). -/
theorem logicVfReset_iff_of_default {s : State} (h : s.outside.params.logicVfReset = defaultParams.logicVfReset) :
    logicVfReset s = true ↔ s.mode = .cosmacVIP := by
  rw [logicVfReset, h]
  cases s.mode <;> decide

/-- A cycle that completes after a result computed bit by bit and the reset of `VF`, which comes last where the policy
asks for it. -/
theorem complete_bitwise_spec (s : State) (x y : Reg) {b : Byte} {op : Bool → Bool → Bool}
    (hb : ∀ k, b.getLsbD k = op ((s.reg x).getLsbD k) ((s.reg y).getLsbD k)) :
    ∃ t, complete false (s.setReg x b).logicReset = .next t ∧ Completed false s t ∧ Keeps { regs := [x, vf] } s t
      ∧ (∀ k, k < 8 → ¬ (x = vf ∧ logicVfReset s = true) →
          (t.reg x).getLsbD k = op ((s.reg x).getLsbD k) ((s.reg y).getLsbD k))
      ∧ (logicVfReset s = true → t.reg vf = 0#8)
      ∧ (logicVfReset s = false → x ≠ vf → t.reg vf = s.reg vf) := by
  obtain ⟨t, ht, hcompleted, hkeeps, -⟩ :=
    complete_spec (d := false) (s := s) (by simp) (keeps_logicReset_setReg s x b)
  have hreg (r : Reg) := (complete_reg ht r).trans (reg_logicReset_setReg s x b r)
  refine ⟨t, ht, hcompleted, hkeeps, fun k _ hx => ?_, fun hreset => ?_, fun hkept hx => ?_⟩
  · rw [hreg, if_neg hx, if_pos rfl, hb]
  · rw [hreg, if_pos ⟨rfl, hreset⟩]
  · rw [hreg, if_neg (by simp [hkept]), if_neg (Ne.symm hx)]

/-! ### The statements -/

/-- Settles O33: each of the three instructions completes after a bitwise result and the reset of `VF`. -/
theorem logicWorksBitwiseAndResetsTheFlagByPolicy : Obligations.LogicWorksBitwiseAndResetsTheFlagByPolicy := by
  rintro s x y i n op (⟨rfl, rfl, rfl⟩ | ⟨rfl, rfl, rfl⟩ | ⟨rfl, rfl, rfl⟩)
  · exact ⟨nibbles_arithmetic_toNat x y 1#4, logicVfReset_iff_of_default,
      complete_bitwise_spec s x y fun _ => BitVec.getLsbD_or⟩
  · exact ⟨nibbles_arithmetic_toNat x y 2#4, logicVfReset_iff_of_default,
      complete_bitwise_spec s x y fun _ => BitVec.getLsbD_and⟩
  · exact ⟨nibbles_arithmetic_toNat x y 3#4, logicVfReset_iff_of_default,
      complete_bitwise_spec s x y fun _ => BitVec.getLsbD_xor⟩

/-- Settles O34: each of the three instructions completes after its wrapped result and its flag. -/
theorem addAndSubtractWrapAndWriteTheFlagLast : Obligations.AddAndSubtractWrapAndWriteTheFlagLast := by
  intro s x y
  exact ⟨complete_setResultFlag_spec false s x (BitVec.toNat_add _ _) (carryFlag_toNat _ _),
    complete_setResultFlag_spec false s x (sub_toNat_byte _ _) (notBorrowFlag_toNat _ _),
    complete_setResultFlag_spec false s x (sub_toNat_byte _ _) (notBorrowFlag_toNat _ _)⟩

/-- Settles O35, from the numbers that ADD, SUB and SUBN leave in `VF`. -/
theorem carryAndBorrowInvariantsHold : Obligations.CarryAndBorrowInvariantsHold := by
  rintro s x y a b rfl rfl
  obtain ⟨⟨t, hadd, -, -, -, hcarry⟩, ⟨u, hsub, -, -, -, hsubFlag⟩, ⟨v, hsubn, -, -, -, hsubnFlag⟩⟩ :=
    addAndSubtractWrapAndWriteTheFlagLast s x y
  exact ⟨⟨t, hadd, eq_one_iff_of_toNat_eq_ite hcarry⟩, ⟨u, hsub, eq_one_iff_of_toNat_eq_ite hsubFlag⟩,
    ⟨v, hsubn, eq_one_iff_of_toNat_eq_ite hsubnFlag⟩⟩

/-- Settles O31: a completed write of `V[X]`. -/
theorem ldImmLoadsTheImmediate : Obligations.LdImmLoadsTheImmediate := by
  intro s x nn
  refine ⟨?_, complete_setReg_spec false s x nn⟩
  rw [encode, nibblesByte_toNat, BitVec.toNat_ofNat]
  omega

/-- Settles O36: both shifts complete after the shifted source and the bit it lost. -/
theorem shiftsTakeTheirSourceByModeAndFlagTheLostBit : Obligations.ShiftsTakeTheirSourceByModeAndFlagTheLostBit := by
  intro s x y src hsrc
  obtain rfl : src = shiftOperand s x y := hsrc.trans (shiftOperand_eq s x y).symm
  exact ⟨complete_setResultFlag_spec false s x (shiftRight_one_toNat _) (shiftedOutRight_toNat _),
    complete_setResultFlag_spec false s x (shiftLeft_one_toNat _) (shiftedOutLeft_toNat _)⟩

/-- Settles O37: a completed draw, masked with the immediate. -/
theorem rndMasksOneFreeDraw : Obligations.RndMasksOneFreeDraw := by
  intro s x nn
  obtain ⟨t, ht, hcompleted, hkeeps, hdraws, hreg⟩ := complete_drawTaken_spec false s x (s.nextDraw &&& nn)
  refine ⟨t, ht, hcompleted, hkeeps, hdraws, fun k _ => ?_⟩
  rw [hreg, BitVec.getLsbD_and, State.nextDraw]

end Sys2Proof.Machine

/-! The statements of spec/43_index_memory.md. FX29, FX55 and FX65 end with a write of `I` (after nothing, a store, a
register load), and what such a cycle leaves is said once (`complete_setI_spec`). FX65 and FX85 replace the first
registers, and that no other register changes is said once (`keeps_registers_of_le`). -/

namespace Sys2Proof.Machine

/-! ### What a completed cycle leaves in memory and in `I` -/

theorem complete_memRead {d : Bool} {u t : State} (h : complete d u = .next t) (a : Nat) : t.memRead a = u.memRead a := by
  cases h; rfl

theorem complete_i {d : Bool} {u t : State} (h : complete d u = .next t) : t.i = u.i := by cases h; rfl

theorem Keeps.setI {c : Changes} {s u : State} (h : Keeps c s u) (w : Word) :
    Keeps { c with i := true } s (u.setI w) :=
  { h with i := nofun }

/-- A cycle that completes after a write of `I` on top of the changes that led to `u`. -/
theorem complete_setI_spec (d : Bool) {c : Changes} {s u : State} (hresults : u.outside.results = s.outside.results)
    (hkeeps : Keeps c s u) (w : Word) : ∃ t, complete d (u.setI w) = .next t ∧ Completed d s t
      ∧ Keeps { c with i := true } s t ∧ t.i = w ∧ (∀ a, t.memRead a = u.memRead a) ∧ ∀ r, t.reg r = u.reg r := by
  obtain ⟨t, ht, hcompleted, hkeeps, -⟩ := complete_spec (d := d) (u := u.setI w) hresults (hkeeps.setI w)
  exact ⟨t, ht, hcompleted, hkeeps, complete_i ht, complete_memRead (u := u.setI w) ht,
    complete_reg (u := u.setI w) ht⟩

/-! ### Numbers of words, addresses and digits -/

theorem nibblesByte_F_toNat (x : Reg) (nn : Byte) :
    (nibblesByte 0xF#4 x nn).toNat = 0xF000 + 0x100 * x.toNat + nn.toNat := by
  rw [nibblesByte_toNat, BitVec.toNat_ofNat]; omega

/-- `I` after a transfer of X+1 bytes stays in Schip mode and advances in the others (10_state.md R27). -/
theorem indexAfterTransfer_toNat (s : State) (x : Reg) : (indexAfterTransfer s x).toNat
    = if s.mode = .schip then s.i.toNat else (s.i.toNat + x.toNat + 1) % 65536 := by
  cases hm : s.mode <;> simp [indexAfterTransfer, indexIncrement, hm, Nat.add_assoc]

@[simp] theorem decimalDigits_length (b : Byte) : (decimalDigits b).length = 3 := rfl

theorem decimalDigits_toNat (b : Byte) : (decimalDigits b)[0].toNat = b.toNat / 100
    ∧ (decimalDigits b)[1].toNat = b.toNat / 10 % 10 ∧ (decimalDigits b)[2].toNat = b.toNat % 10 := by
  have := b.isLt
  simp only [decimalDigits, List.getElem_cons_zero, List.getElem_cons_succ, BitVec.toNat_ofNat]
  omega

/-! ### The registers of a transfer -/

@[simp] theorem regsUpTo_length (s : State) (x : Reg) : (regsUpTo s x).length = x.toNat + 1 := by simp [regsUpTo]

theorem regsUpTo_getElem (s : State) (x k : Reg) (h : k.toNat < (regsUpTo s x).length) :
    (regsUpTo s x)[k.toNat] = s.reg k := by simp [regsUpTo]

theorem mem_range_registers_of_le {n : Nat} {r : Reg} (h : r.toNat ≤ n) :
    r ∈ (List.range (n + 1)).map (BitVec.ofNat 4) :=
  List.mem_map.2 ⟨r.toNat, List.mem_range.2 (by omega), by simp⟩

/-- New register contents that agree with the old ones above `V[n]` change only `V[0]..V[n]`. -/
theorem keeps_registers_of_le {s : State} {n : Nat} {v : Vector Byte 16}
    (h : ∀ r : Reg, ¬ r.toNat ≤ n → ({ s with v := v } : State).reg r = s.reg r) :
    Keeps { regs := (List.range (n + 1)).map (BitVec.ofNat 4) } s { s with v := v } :=
  { keeps_refl {} s with regs := fun r hr => h r fun hle => hr (mem_range_registers_of_le hle) }

theorem keeps_loadRegs (s : State) (x : Reg) :
    Keeps { regs := (List.range (x.toNat + 1)).map (BitVec.ofNat 4) } s (s.loadRegs x) :=
  keeps_registers_of_le fun r hr => (reg_loadRegs s x r).trans (if_neg hr)

theorem keeps_loadRpl (s : State) (x : Reg) :
    Keeps { regs := (List.range (min x.toNat 7 + 1)).map (BitVec.ofNat 4) } s (s.loadRpl x) :=
  keeps_registers_of_le fun r hr => (reg_loadRpl s x r).trans (dif_neg hr)

/-! ### The statements -/

/-- Settles O40: a completed store of the three digits, read back byte by byte. -/
theorem ldBStoresTheDecimalDigits : Obligations.LdBStoresTheDecimalDigits := by
  intro s x
  refine ⟨nibblesByte_F_toNat x 0x33#8, ?_⟩
  obtain ⟨t, ht, hcompleted, hkeeps, -⟩ :=
    complete_spec (d := false) (by simp) (keeps_storeBytes s (decimalDigits (s.reg x)))
  have hread (k : Nat) (hk : k < (decimalDigits (s.reg x)).length) :
      t.memRead (s.i.toNat + k) = (decimalDigits (s.reg x))[k] :=
    (complete_memRead ht _).trans (memRead_storeBytes _ (by simp) _ _ k hk)
  obtain ⟨hundreds, tens, ones⟩ := decimalDigits_toNat (s.reg x)
  exact ⟨t, ht, hcompleted, hkeeps, (congrArg _ (hread 0 (by simp))).trans hundreds,
    (congrArg _ (hread 1 (by simp))).trans tens, (congrArg _ (hread 2 (by simp))).trans ones⟩

/-- Settles O41: a completed store of the registers and a write of `I`. -/
theorem storeRegistersWritesV0ToVX : Obligations.StoreRegistersWritesV0ToVX := by
  intro s x
  refine ⟨nibblesByte_F_toNat x 0x55#8, ?_⟩
  have hlen := regsUpTo_length s x
  obtain ⟨t, ht, hcompleted, hkeeps, hi, hread, -⟩ :=
    complete_setI_spec false (by simp) (keeps_storeBytes s (regsUpTo s x)) (indexAfterTransfer s x)
  refine ⟨t, ht, hcompleted, hlen ▸ hkeeps, fun k hk => ?_, hi ▸ indexAfterTransfer_toNat s x⟩
  rw [hread, memRead_storeBytes _ (by omega) _ _ _ (by omega), regsUpTo_getElem]

/-- Settles O42: a completed load of the registers and a write of `I`. -/
theorem loadRegistersReadsV0ToVX : Obligations.LoadRegistersReadsV0ToVX := by
  intro s x
  refine ⟨nibblesByte_F_toNat x 0x65#8, ?_⟩
  obtain ⟨t, ht, hcompleted, hkeeps, hi, -, hreg⟩ :=
    complete_setI_spec false (by simp) (keeps_loadRegs s x) (indexAfterTransfer s x)
  refine ⟨t, ht, hcompleted, hkeeps, fun k hk => ?_, hi ▸ indexAfterTransfer_toNat s x⟩
  rw [hreg, reg_loadRegs, if_pos hk]

/-- Settles O38: a completed write of `I`; the product of a byte and 5 fits in 16 bits. -/
theorem ldFMultipliesByFive : Obligations.LdFMultipliesByFive := by
  intro s x
  refine ⟨nibblesByte_F_toNat x 0x29#8, ?_⟩
  obtain ⟨t, ht, hcompleted, hkeeps, hi, -⟩ :=
    complete_setI_spec false rfl (keeps_refl {} s) (BitVec.ofNat 16 (5 * (s.reg x).toNat))
  have hbyte := (s.reg x).isLt
  exact ⟨t, ht, hcompleted, hkeeps, by rw [hi, BitVec.toNat_ofNat]; omega⟩

/-- Settles O44: a completed load of the registers from the RPL slots. -/
theorem loadRplCopiesTheFirstSlots : Obligations.LoadRplCopiesTheFirstSlots := by
  intro s x
  refine ⟨nibblesByte_F_toNat x 0x85#8, ?_⟩
  obtain ⟨t, ht, hcompleted, hkeeps, -⟩ := complete_spec (d := false) (by simp) (keeps_loadRpl s x)
  refine ⟨t, ht, hcompleted, hkeeps, fun k hk => ?_⟩
  have hnumber : (BitVec.ofNat 4 k.val).toNat = k.val := by rw [BitVec.toNat_ofNat]; omega
  rw [complete_reg ht, reg_loadRpl, dif_pos (by omega)]
  simp [hnumber]

end Sys2Proof.Machine

/-! The statements of spec/44_timers_input.md on the key skips and on the timers. A skip is a write of `PC`, so what a cycle
that completes after one leaves (`complete_skipIf_spec`) is that of a write of `PC`. -/

namespace Sys2Proof.Machine

/-! ### Skips on a key -/

theorem skipIf_pc_toNat (s : State) (c : Bool) :
    (s.skipIf c).pc.toNat = (s.pc.toNat + if c = true then 2 else 0) % 65536 := by
  rw [skipIf_pc]
  cases c
  · exact (Nat.mod_eq_of_lt s.pc.isLt).symm
  · exact BitVec.toNat_add _ _

/-- A cycle that completes after a skip changes only `PC`: two more bytes, modulo 2^16, when the condition holds (R81). -/
theorem complete_skipIf_spec (d : Bool) (s : State) (c : Bool) : ∃ t, complete d (s.skipIf c) = .next t
    ∧ Completed d s t ∧ Keeps { pc := true } s t
    ∧ t.pc.toNat = (s.pc.toNat + if c = true then 2 else 0) % 65536 := by
  rw [← skipIf_pc_toNat, skipIf_eq_setPc]
  obtain ⟨t, ht, hcompleted, hkeeps, hpc⟩ := complete_setPc_spec d s (if c then s.pc + 2#16 else s.pc)
  exact ⟨t, ht, hcompleted, hkeeps, congrArg _ hpc⟩

/-- The latch tested is that of the low nibble of `V[X]` (D18). -/
theorem keyDown_eq {s : State} {x : Reg} {k : Fin 16} (hk : k.val = (s.reg x).toNat % 16) :
    keyDown s x = s.input[k] := by
  simp only [keyDown, ← hk, Fin.getElem_fin]

/-- Settles O47: both instructions complete after a skip, one on the latch and one on its negation. -/
theorem keySkipsTestTheLatch : Obligations.KeySkipsTestTheLatch := by
  intro s x k hk
  have hskp := complete_skipIf_spec false s (keyDown s x)
  have hsknp := complete_skipIf_spec false s (!keyDown s x)
  simp only [keyDown_eq hk, Bool.not_eq_true', ← Bool.not_eq_true, ite_not] at hskp hsknp
  rw [exec, exec, execSkp, execSknp, keyDown_eq hk]
  exact ⟨hskp, hsknp⟩

/-! ### The timers -/

/-- A tick takes one away and stops at 0, as subtraction on numbers does. -/
theorem tick_toNat (t : Byte) : (tick t).toNat = t.toNat - 1 := by
  rw [tick]
  split
  · next hpos => exact BitVec.toNat_sub_of_le (BitVec.le_def.2 hpos)
  · next hzero => omega

/-- Settles O59: each timer ticks once, and no other field is written. -/
theorem timersCountDownToZero : Obligations.TimersCountDownToZero := by
  intro s
  exact ⟨_, rfl, tick_toNat s.delay, tick_toNat s.sound, rfl⟩

end Sys2Proof.Machine

/-! The statements of spec/45_display.md. What a cycle that completes after a write of the grid, of `hiresMode`, or of the
grid and `VF` leaves is said once each. For a sprite, the laws of the grid speak of the list of its set bits; that list holds
the bits `SpriteBit8` names (`any_spritePixels_loadBytes`), which turns them into the statement's `Touches`. -/

namespace Sys2Proof.Machine

/-! ### What a completed cycle leaves in the display -/

theorem complete_grid {d : Bool} {u t : State} (h : complete d u = .next t) : t.grid = u.grid := by cases h; rfl

theorem complete_hiresMode {d : Bool} {u t : State} (h : complete d u = .next t) : t.hiresMode = u.hiresMode := by
  cases h; rfl

/-- A cycle that completes after a write of the grid. -/
theorem complete_setGrid_spec (d : Bool) (s : State) (g : Grid) : ∃ t, complete d { s with grid := g } = .next t
    ∧ Completed d s t ∧ Keeps { grid := true } s t ∧ t.grid = g := by
  obtain ⟨t, ht, hcompleted, hkeeps, -⟩ := complete_spec (d := d) (by rfl) (keeps_setGrid s g)
  exact ⟨t, ht, hcompleted, hkeeps, complete_grid ht⟩

/-- A cycle that completes after a switch of the resolution. -/
theorem complete_setHires_spec (d : Bool) (s : State) (h : Bool) : ∃ t, complete d { s with hiresMode := h } = .next t
    ∧ Completed d s t ∧ Keeps { hiresMode := true } s t ∧ t.hiresMode = h := by
  obtain ⟨t, ht, hcompleted, hkeeps, -⟩ := complete_spec (d := d) (by rfl) (keeps_setHires s h)
  exact ⟨t, ht, hcompleted, hkeeps, complete_hiresMode ht⟩

/-- A cycle that completes after a write of the grid and then of `VF`. -/
theorem complete_draw_spec (d : Bool) (s : State) (g : Grid) (flag : Byte) :
    ∃ t, complete d (State.setReg { s with grid := g } vf flag) = .next t ∧ Completed d s t
      ∧ Keeps { regs := [vf], grid := true } s t ∧ t.grid = g ∧ t.reg vf = flag := by
  obtain ⟨t, ht, hcompleted, hkeeps, -⟩ := complete_spec (d := d) (by rfl) (keeps_draw s g flag)
  exact ⟨t, ht, hcompleted, hkeeps, complete_grid ht, (complete_reg ht vf).trans (reg_setReg_same _ vf flag)⟩

/-- Settles O48: a completed write of the cleared grid. -/
theorem clsClearsEveryPixel : Obligations.ClsClearsEveryPixel := by
  intro s u
  have hword : (encode (.cls u)).toNat = 0x100 * u.toNat + 0xE0 := by
    rw [encode, nibblesByte_toNat, BitVec.toNat_ofNat, BitVec.toNat_ofNat]
    omega
  obtain ⟨t, ht, hcompleted, hkeeps, hgrid⟩ := complete_setGrid_spec true s clearGrid
  exact ⟨hword, t, ht, hcompleted, hkeeps, fun x y _ _ => hgrid ▸ pixel_clearGrid x y⟩

/-- Settles O49: two completed switches of the resolution; the frame keeps the grid. -/
theorem resolutionSwitchKeepsTheGrid : Obligations.ResolutionSwitchKeepsTheGrid := fun s _ =>
  ⟨complete_setHires_spec true s false, complete_setHires_spec true s true⟩

/-! ### The 8-wide sprite -/

/-- DRW draws the 8-wide sprite unless it is the big one (R150). -/
theorem exec_drw_of_not_big {s : State} {n : Nibble} (h : ¬ (s.hiresMode = true ∧ n = 0#4)) (x y : Reg) :
    exec (.drw x y n) s =
      let r := drawSprite8 s.view (s.reg x).toNat (s.reg y).toNat (s.loadBytes s.i.toNat n.toNat) s.grid
      complete true (State.setReg { s with grid := r.1 } vf (collisionFlag r.2)) :=
  if_neg (by simpa using h)

@[simp] theorem loadBytes_length (s : State) (a n : Nat) : (s.loadBytes a n).length = n := by simp [State.loadBytes]

@[simp] theorem loadBytes_getElem (s : State) (a n k : Nat) (h : k < (s.loadBytes a n).length) :
    (s.loadBytes a n)[k] = s.memRead (a + k) := by simp [State.loadBytes]

/-- A property of some set sprite pixel, in the words of `SpriteBit8`: the most significant bit of a row is the leftmost
(R133). -/
theorem any_spritePixels_loadBytes {s : State} {ox oy n : Nat} (f : Nat × Nat → Bool) :
    (spritePixels ox oy (s.loadBytes s.i.toNat n)).any f = true
      ↔ ∃ r c, SpriteBit8 s n r c ∧ f (ox + c, oy + r) = true := by
  have hbit (r c : Nat) : SpriteBit8 s n r c ↔ ∃ h : r < (s.loadBytes s.i.toNat n).length,
      c < 8 ∧ (s.loadBytes s.i.toNat n)[r].getMsbD c = true := by
    simp only [SpriteBit8, loadBytes_length, loadBytes_getElem, exists_prop]
    exact and_congr_right fun _ => and_congr_right fun hc => by simp [BitVec.getMsbD, hc]
  rw [List.any_eq_true]
  simp only [mem_spritePixels, hbit]
  constructor
  · rintro ⟨_, ⟨r, c, hr, hc, hset, rfl⟩, hf⟩
    exact ⟨r, c, ⟨hr, hc, hset⟩, hf⟩
  · rintro ⟨r, c, ⟨hr, hc, hset⟩, hf⟩
    exact ⟨_, ⟨r, c, hr, hc, hset, rfl⟩, hf⟩

theorem loadBytes_nibble_length_le (s : State) (a : Nat) (n : Nibble) : (s.loadBytes a n.toNat).length ≤ 32 := by
  rw [loadBytes_length]; omega

section Sprite8
variable (s : State) (x y : Reg) (n : Nibble)

/-- The 8-wide sprite flips exactly the pixels that one of its set bits covers (R136, R137). -/
theorem pixel_drawSprite8 {px py : Nat} (hx : px < 128) (hy : py < 64) :
    pixel (drawSprite8 s.view (s.reg x).toNat (s.reg y).toNat (s.loadBytes s.i.toNat n.toNat) s.grid).1 px py = true
      ↔ ¬ (pixel s.grid px py = true ↔ Touches s (SpriteBit8 s n.toNat) x y px py) := by
  rw [drawSprite8, pixel_drawRows8 _ _ _ _ (loadBytes_nibble_length_le ..), Bool.xor_iff_ne, Ne, Bool.eq_iff_iff,
    any_spritePixels_loadBytes]
  simp only [covers_iff s.view _ _ hx hy, Touches]

/-- The 8-wide sprite collides exactly when one of its set bits covers a pixel that was 1 (R137). -/
theorem drawSprite8_hit :
    (drawSprite8 s.view (s.reg x).toNat (s.reg y).toNat (s.loadBytes s.i.toNat n.toNat) s.grid).2 = true
      ↔ ∃ px py, px < 128 ∧ py < 64 ∧ pixel s.grid px py = true ∧ Touches s (SpriteBit8 s n.toNat) x y px py := by
  rw [drawSprite8, drawRows8_hit _ _ _ _ _ (loadBytes_nibble_length_le ..), any_spritePixels_loadBytes]
  simp only [hits_iff, Touches]
  constructor
  · rintro ⟨r, c, hbit, ⟨px, py, hx, hy, hpixel, hcovers⟩ | ⟨hfalse, -⟩⟩
    · exact ⟨px, py, hx, hy, hpixel, r, c, hbit, hcovers⟩
    · cases hfalse
  · rintro ⟨px, py, hx, hy, hpixel, r, c, hbit, hcovers⟩
    exact ⟨r, c, hbit, .inl ⟨px, py, hx, hy, hpixel, hcovers⟩⟩

end Sprite8

/-- Settles O52: a completed write of the drawn grid and of the collision flag. -/
theorem drwXorsTheSpriteAndFlagsTheCollision : Obligations.DrwXorsTheSpriteAndFlagsTheCollision := by
  intro s x y n hsmall
  obtain ⟨t, ht, hcompleted, hkeeps, hgrid, hflag⟩ := complete_draw_spec true s _ _
  refine ⟨t, (exec_drw_of_not_big hsmall x y).trans ht, hcompleted, hkeeps, fun px py hx hy => ?_, ?_⟩
  · rw [hgrid, pixel_drawSprite8 s x y n hx hy]
  · rw [hflag]
    classical exact if_congr (drawSprite8_hit s x y n) rfl rfl

end Sys2Proof.Machine

/-! The statements of spec/60_exceptions.md. One case split over `exec` says that every instruction ends in one of two ways:
it completes, or it raises a fault on the very state it was given (`exec_completes_or_raises`). -/

namespace Sys2Proof.Machine

/-! ### A fault is precise -/

/-- Every execution ends in one of two ways: it completes, on a state of its own (R76), or it raises a fault before it has
written anything (R77). -/
theorem exec_completes_or_raises (i : Instr) (s : State) :
    (∃ d u, exec i s = complete d u) ∨ ∃ f, exec i s = raise f s := by
  cases i
  case ret u =>
    simp only [exec, execRet]
    split
    · exact .inr ⟨_, rfl⟩
    · exact .inl ⟨_, _, rfl⟩
  case call nnn =>
    simp only [exec, execCall]
    split
    · exact .inr ⟨_, rfl⟩
    · exact .inl ⟨_, _, rfl⟩
  case drw x y n =>
    simp only [exec, execDrw]
    split <;> exact .inl ⟨_, _, rfl⟩
  case ldVxK x =>
    simp only [exec, execLdVxK]
    split <;> exact .inl ⟨_, _, rfl⟩
  case illegal5 | illegal8XY8 | illegal8XY9 | illegal8XYA | illegal8XYB | illegal8XYC | illegal8XYD | illegal8XYF
      | illegal9 | illegalE | illegalF => exact .inr ⟨_, rfl⟩
  -- Every other instruction has no fault to raise.
  all_goals exact .inl ⟨_, _, rfl⟩

section
variable {s t : State} {f g : Fault}

/-- The latest result of a completed cycle is no fault. -/
theorem result_ne_faulted_of_complete {d : Bool} {u : State} (h : complete d u = .next t) :
    t.outside.result ≠ some (.faulted f) := by
  rw [complete_next h, returned_result]
  simp

/-- The fault that a cycle raised is the one it returns. -/
theorem faulted_of_raise (h : raise g s = .next t) (hresult : t.outside.result = some (.faulted f)) : Faulted f s t := by
  obtain ⟨t', ht', hfaulted⟩ := raise_spec g s
  obtain rfl : t' = t := Host.Outcome.next.inj (ht'.symm.trans h)
  obtain rfl : g = f := by simpa [hfaulted.result.1] using hresult
  exact hfaulted

/-- An execution that returned a fault kept the Machine State it was given. -/
theorem faulted_of_exec {i : Instr} (h : exec i s = .next t) (hresult : t.outside.result = some (.faulted f)) :
    Faulted f s t := by
  obtain ⟨d, u, hcomplete⟩ | ⟨g, hraise⟩ := exec_completes_or_raises i s
  · exact absurd hresult (result_ne_faulted_of_complete (hcomplete.symm.trans h))
  · exact faulted_of_raise (hraise.symm.trans h) hresult

end

/-! ### The statements -/

/-- Settles O10: the state given to the execution is the one after the provisional advance. -/
theorem faultedCycleKeepsOnlyThePcAdvance : Obligations.FaultedCycleKeepsOnlyThePcAdvance := by
  intro s t f hstep hresult
  rw [← advance_eq]
  exact faulted_of_exec (exec_of_step hstep).2 hresult

/-- Settles O55: the meaning of each ILLEGAL row is to raise the fault with its own word. -/
theorem illegalWordsRaiseIllegalOpcode : Obligations.IllegalWordsRaiseIllegalOpcode := by
  rintro s x y n nn i (rfl | rfl | rfl | rfl | rfl | rfl | rfl | rfl | rfl | rfl | rfl)
  all_goals exact raise_spec _ s

/-- Settles O56: a rejected call answers no next state, so the run goes on from the state it was made in. -/
theorem oversizedRomIsRejected : Obligations.OversizedRomIsRejected := by
  intro s rom mode hlong
  have hfault : powerAndLoad rom mode s = .fault (.romTooLarge rom.length) := powerAndLoad_of_too_long hlong mode s
  refine ⟨hfault, ?_⟩
  rw [hostRun_cons]
  exact afterTransaction_of_no_next fun t ht => nomatch hfault.symm.trans ht

end Sys2Proof.Machine

/-! The statement of spec/70_reset_and_hazards.md about `power_and_load`: the state after power-on field by field, and what
its memory holds once the ROM is stored. -/

namespace Sys2Proof.Machine

/-! ### The state after power-on -/

section PowerOn
variable (mode : Mode) (o : Outside)

@[simp] theorem powerOn_reg (r : Reg) : (powerOn mode o).reg r = 0#8 := Vector.getElem_replicate _
@[simp] theorem powerOn_i : (powerOn mode o).i = 0#16 := rfl
@[simp] theorem powerOn_pc : (powerOn mode o).pc = 0x200#16 := rfl
@[simp] theorem powerOn_sp : (powerOn mode o).sp = 0 := rfl
@[simp] theorem powerOn_stack : (powerOn mode o).stack = Vector.replicate 16 0#16 := rfl
@[simp] theorem powerOn_rpl : (powerOn mode o).rpl = Vector.replicate 8 0#8 := rfl
@[simp] theorem powerOn_delay : (powerOn mode o).delay = 0#8 := rfl
@[simp] theorem powerOn_sound : (powerOn mode o).sound = 0#8 := rfl
@[simp] theorem powerOn_input : (powerOn mode o).input = Vector.replicate 16 false := rfl
@[simp] theorem powerOn_grid : (powerOn mode o).grid = clearGrid := rfl
@[simp] theorem powerOn_hiresMode : (powerOn mode o).hiresMode = false := rfl
@[simp] theorem powerOn_wraparound : (powerOn mode o).wraparound = o.params.wraparound := rfl
@[simp] theorem powerOn_mode : (powerOn mode o).mode = mode := rfl
@[simp] theorem powerOn_draw : (powerOn mode o).draw = false := rfl
@[simp] theorem powerOn_powered : (powerOn mode o).powered = true := rfl
@[simp] theorem powerOn_outside : (powerOn mode o).outside = o := rfl

/-- Nothing is listed after power-on, so every byte is what reset gave it. -/
theorem powerOn_memRead {a : Nat} (ha : a < memSize) : (powerOn mode o).memRead a = resetByte o.params a :=
  congrArg (resetByte o.params) (Nat.mod_eq_of_lt ha)

end PowerOn

/-- The reset contents by regions: the big font, then what is left of the small font, then zeros (R168; log 17). -/
theorem resetByte_eq_regions (p : Params) (a : Nat) :
    resetByte p a =
      if p.bigFontBase.toNat ≤ a ∧ a < p.bigFontBase.toNat + p.bigFont.length then
        p.bigFont.getD (a - p.bigFontBase.toNat) 0#8
      else if a < p.fontSmall.length then p.fontSmall.getD a 0#8 else 0#8 := by
  have hsmall : p.fontSmall.getD a 0#8 = if a < p.fontSmall.length then p.fontSmall.getD a 0#8 else 0#8 := by
    split
    · rfl
    · next h => exact List.getD_eq_default _ _ (Nat.not_lt.mp h)
  rw [resetByte, ← hsmall]

/-! ### The ROM in memory -/

/-- A ROM that fits ends inside the address space, so storing it wraps nowhere and every address outside its range keeps
its byte. -/
theorem memRead_storeRom_outside {rom : List Byte} (hfits : rom.length ≤ maxRom) (s : State) {a : Nat} (ha : a < memSize)
    (hout : a < programBase ∨ programBase + rom.length ≤ a) : (s.storeBytes programBase rom).memRead a = s.memRead a := by
  refine memRead_storeBytes_of_forall_ne rom s programBase a fun k hk => ?_
  simp only [maxRom, memSize, programBase, mask12] at *
  omega

/-! ### The statement -/

/-- Settles O57: the state answered is the one after power-on with the ROM stored, and the store writes memory alone. -/
theorem powerAndLoadResetsEveryElement : Obligations.PowerAndLoadResetsEveryElement := by
  intro s rom mode hfits
  refine ⟨_, powerAndLoad_of_fits (Nat.not_lt.mpr hfits) mode s, ?_⟩
  -- The 16 fields beside the memory: the store keeps what power-on gave them.
  iterate 16 refine ⟨by simp, ?_⟩
  refine ⟨fun k hk => memRead_storeBytes rom (by omega) _ programBase k hk, fun a ha hout => ?_⟩
  rw [memRead_storeRom_outside hfits _ ha hout, powerOn_memRead _ _ ha, resetByte_eq_regions]

end Sys2Proof.Machine

/-! The statements on the encoding that are not about one word at a time: an instruction's own word tells whether it is an
ILLEGAL row (`isIllegalWord_encode`), and the decoder's answer is a reading of its word (`decode_isReading`). -/

namespace Sys2Proof.Machine

variable {w : Word} {scrollUp : Bool} {i : Instr}

/-! ### The illegal words -/

/-- The spec's list of the illegal words, read off the fields of the word (R61, R67). -/
theorem isIllegalWord_eq_fields (w : Word) : isIllegalWord w =
    (((fieldT w).toNat == 0x8 && [0x8, 0x9, 0xA, 0xB, 0xC, 0xD, 0xF].contains (fieldN w).toNat)
      || ((fieldT w).toNat == 0xF && !recognisedF (fieldNN w))
      || (((fieldT w).toNat == 0x5 || (fieldT w).toNat == 0x9) && fieldN w != 0#4)
      || ((fieldT w).toNat == 0xE && !recognisedE (fieldNN w))) := by
  simp [isIllegalWord, recognisedF, recognisedE, ← BitVec.toNat_inj, fieldT_toNat, fieldN_toNat, fieldNN_toNat,
    Bool.beq_eq_decide_eq, Bool.and_assoc, bne]

/-- The word of an instruction is on the list exactly when the instruction is an ILLEGAL row. -/
theorem isIllegalWord_encode (h : i.wf scrollUp = true) : isIllegalWord (encode i) = isIllegalInstr i := by
  rw [isIllegalWord_eq_fields]
  cases i with
  | illegal5 x y n | illegal9 x y n | illegalE x nn | illegalF x nn => simp_all [encode, isIllegalInstr, Instr.wf]
  | _ => simp [encode, isIllegalInstr, recognisedE, recognisedF]

theorem isIllegalInstr_decode (scrollUp : Bool) (w : Word) : isIllegalInstr (decode scrollUp w) = isIllegalWord w := by
  obtain ⟨hwf, hword⟩ := decode_isReading scrollUp w
  rw [← isIllegalWord_encode hwf, hword]

/-! ### The statements -/

/-- Settles O1: decoding takes the word of every row back to it. -/
theorem decodeOfEncodeIsTheInstruction : Obligations.DecodeOfEncodeIsTheInstruction := fun _ _ => decode_encode

/-- Settles O3: the reading of a word is an ILLEGAL row exactly when its own word is on the list. -/
theorem illegalWordsAreThoseTheSpecLists : Obligations.IllegalWordsAreThoseTheSpecLists := isIllegalInstr_decode

/-- Settles O4: the row RETRY0 is well formed only with a low byte that no other row of the 0x0 group takes. -/
theorem retryWordsAreThoseTheSpecLists : Obligations.RetryWordsAreThoseTheSpecLists := by
  intro scrollUp w
  refine ⟨fun ⟨nnn, hdecode⟩ => ?_, fun hretry => ⟨_, decode_retry0 hretry⟩⟩
  obtain ⟨hwf, hword⟩ := decode_isReading scrollUp w
  rw [hdecode] at hwf hword
  rw [isRetryWord_iff, ← hword, encode, fieldT_nibbleAddr, fieldNN_nibbleAddr]
  exact ⟨rfl, by simpa [Instr.wf] using hwf⟩

/-- Settles O5, by running the decoder on each word. -/
theorem sampleWordsDecodeAsTheSpecSpellsThem : Obligations.SampleWordsDecodeAsTheSpecSpellsThem := by
  unfold Obligations.SampleWordsDecodeAsTheSpecSpellsThem
  decide

end Sys2Proof.Machine

/-! The statements on what a cycle changes. The access matrix of R34 is read the other way round, as one row of `Changes`
for each instruction (`changesOf`), and one case split over `exec` says that every execution keeps the rest
(`exec_keeps`). -/

namespace Sys2Proof.Machine

variable {s t u : State} {c : Changes}

/-! ### What each instruction may change -/

/-- The row of the access matrix for one instruction (10_state.md R34); what it does not name is kept. -/
def changesOf (i : Instr) (s : State) : Changes :=
  match i with
  | .ldImm x _ | .addImm x _ | .ldReg x _ | .ldVxDt x => { regs := [x] }
  | .rnd x _ => { regs := [x], draws := true }
  | .ldVxK x => { regs := [x], pc := true }
  | .orReg x _ | .andReg x _ | .xorReg x _ => { regs := if logicVfReset s then [x, vf] else [x] }
  | .addReg x _ | .sub x _ | .shr x _ | .subn x _ | .shl x _ => { regs := [x, vf] }
  | .ldVxMem x => { regs := (List.range (x.toNat + 1)).map (BitVec.ofNat 4), i := indexIncrement s.mode }
  | .ldVxR x => { regs := (List.range (min x.toNat 7 + 1)).map (BitVec.ofNat 4) }
  | .drw _ _ _ => { regs := [vf], grid := true }
  | .ldB _ => { cells := cellsAtI s 3 }
  | .ldMemVx x => { cells := cellsAtI s (x.toNat + 1), i := indexIncrement s.mode }
  | .ldI _ | .addI _ | .ldF _ | .ldHf _ => { i := true }
  | .seImm _ _ | .sneImm _ _ | .seReg _ _ | .sneReg _ _ | .skp _ | .sknp _ | .jp _ | .jpV0 _ | .retry0 _ => { pc := true }
  | .call _ | .ret _ => { pc := true, stack := true }
  | .ldR _ => { rpl := true }
  | .ldDt _ | .ldSt _ => { timers := true }
  | .low _ | .high _ => { hiresMode := true }
  | .cls _ | .scd _ _ | .scu _ _ | .scr _ | .scl _ => { grid := true }
  | _ => {}

/-! ### The frames of the updates -/

/-- Completing writes `Draw` and the record alone, which no frame speaks of. -/
theorem Keeps.of_complete {d : Bool} (hkeeps : Keeps c s u) (h : complete d u = .next t) : Keeps c s t := by
  cases h
  exact ⟨hkeeps.regs, hkeeps.memory, hkeeps.i, hkeeps.pc, hkeeps.stack, hkeeps.rpl, hkeeps.timers, hkeeps.grid,
    hkeeps.hiresMode, hkeeps.draws, hkeeps.fixed⟩

/-- Taking a fault keeps everything. -/
theorem keeps_of_raise {f : Fault} (h : raise f s = .next t) : Keeps c s t := by
  cases h
  exact { keeps_refl c s with }

theorem keeps_skipIf (s : State) (b : Bool) : Keeps { pc := true } s (s.skipIf b) :=
  skipIf_eq_setPc s b ▸ keeps_setPc s _

/-- The stack and `PC` together: what CALL and RET write. -/
theorem keeps_setStack (s : State) (stack : Vector Word 16) (sp : Fin 17) (pc : Word) :
    Keeps { pc := true, stack := true } s { s with stack := stack, sp := sp, pc := pc } :=
  { keeps_refl {} s with pc := nofun, stack := nofun }

theorem keeps_saveRpl (s : State) (x : Reg) : Keeps { rpl := true } s (s.saveRpl x) :=
  { keeps_refl {} s with rpl := nofun }

/-- `VF` is named only where the policy resets it. -/
theorem keeps_logicReset_setReg_policy (s : State) (x : Reg) (b : Byte) :
    Keeps { regs := if logicVfReset s then [x, vf] else [x] } s (s.setReg x b).logicReset := by
  cases hpolicy : logicVfReset s with
  | true => exact keeps_logicReset_setReg s x b
  | false =>
    have hkept : (s.setReg x b).logicReset = s.setReg x b := by simp [State.logicReset, logicVfReset_setReg, hpolicy]
    rw [hkept]
    exact keeps_setReg s x b

/-- `I` is named after a transfer only where the mode advances it. -/
theorem Keeps.setIndexAfterTransfer (hkeeps : Keeps c s u) (x : Reg) :
    Keeps { c with i := indexIncrement s.mode } s (u.setI (indexAfterTransfer s x)) :=
  { hkeeps with i := fun hmode => by simp_all [indexAfterTransfer] }

/-! ### Every execution keeps what its row does not name -/

theorem exec_keeps {i : Instr} (h : exec i s = .next t) : Keeps (changesOf i s) s t := by
  cases i
  case ret u =>
    simp only [exec, execRet] at h
    split at h
    · exact keeps_of_raise h
    · exact (keeps_setStack s _ _ _).of_complete h
  case call nnn =>
    simp only [exec, execCall] at h
    split at h
    · exact keeps_of_raise h
    · exact (keeps_setStack s _ _ _).of_complete h
  case drw x y n =>
    simp only [exec, execDrw] at h
    split at h <;> exact (keeps_draw s _ _).of_complete h
  case ldVxK x =>
    simp only [exec, execLdVxK] at h
    split at h
    · exact { (keeps_setReg s _ _).of_complete h with pc := nofun }
    · exact { (keeps_setPc s _).of_complete h with regs := fun r _ => complete_reg h r, pc := nofun }
  case ldImm | addImm | ldReg | ldVxDt => exact (keeps_setReg s _ _).of_complete h
  case rnd => exact (keeps_drawTaken_setReg s _ _).of_complete h
  case orReg | andReg | xorReg => exact (keeps_logicReset_setReg_policy s _ _).of_complete h
  case addReg | sub | shr | subn | shl => exact (keeps_setResultFlag s _ _ _).of_complete h
  case ldB => exact (keeps_storeBytes s _).of_complete h
  case ldMemVx x =>
    have hkeeps := keeps_storeBytes s (regsUpTo s x)
    rw [regsUpTo_length] at hkeeps
    exact (hkeeps.setIndexAfterTransfer x).of_complete h
  case ldVxMem x => exact ((keeps_loadRegs s x).setIndexAfterTransfer x).of_complete h
  case ldVxR x => exact (keeps_loadRpl s x).of_complete h
  case ldR x => exact (keeps_saveRpl s x).of_complete h
  case ldI | addI | ldF | ldHf => exact (keeps_setI s _).of_complete h
  case seImm | sneImm | seReg | sneReg | skp | sknp => exact (keeps_skipIf s _).of_complete h
  case jp | jpV0 | retry0 => exact (keeps_setPc s _).of_complete h
  case ldDt | ldSt => exact (keeps_setTimers s _ _).of_complete h
  case low | high => exact (keeps_setHires s _).of_complete h
  case cls | scd | scu | scr | scl => exact (keeps_setGrid s _).of_complete h
  -- What is left are the ILLEGAL rows.
  all_goals exact keeps_of_raise h

/-! ### The columns of the access matrix -/

theorem le_of_mem_range_registers {n : Nat} {r : Reg} (h : r ∈ (List.range (n + 1)).map (BitVec.ofNat 4)) :
    r.toNat ≤ n := by
  obtain ⟨k, hk, rfl⟩ := List.mem_map.1 h
  rw [List.mem_range] at hk
  rw [BitVec.toNat_ofNat]
  omega

theorem indexIncrement_iff (m : Mode) : indexIncrement m = true ↔ m ≠ .schip := by cases m <;> decide

variable {i : Instr}

theorem writesReg_of_mem_changesOf {r : Reg} (h : r ∈ (changesOf i s).regs) : WritesReg i s r := by
  cases i
  case ldVxMem | ldVxR => exact le_of_mem_range_registers h
  case orReg | andReg | xorReg =>
    simp only [changesOf] at h
    split at h <;> simp_all [WritesReg]
  all_goals simp_all [changesOf, WritesReg]

theorem stores_of_mem_changesOf {a : Nat} (h : a ∈ (changesOf i s).cells) :
    (∃ x, i = .ldB x) ∨ ∃ x, i = .ldMemVx x := by
  unfold changesOf at h
  split at h <;> simp_all

theorem changesOf_i (h : (changesOf i s).i = true) :
    (∃ nnn, i = .ldI nnn) ∨ (∃ x, i = .addI x) ∨ (∃ x, i = .ldF x) ∨ (∃ x, i = .ldHf x)
      ∨ ((∃ x, i = .ldMemVx x ∨ i = .ldVxMem x) ∧ s.mode ≠ .schip) := by
  unfold changesOf at h
  split at h <;> simp_all [indexIncrement_iff]

theorem changesOf_pc (h : (changesOf i s).pc = true) : movesPc i = true := by
  unfold changesOf at h
  split at h <;> simp_all [movesPc]

theorem changesOf_stack (h : (changesOf i s).stack = true) : (∃ nnn, i = .call nnn) ∨ ∃ u, i = .ret u := by
  unfold changesOf at h
  split at h <;> simp_all

theorem changesOf_rpl (h : (changesOf i s).rpl = true) : ∃ x, i = .ldR x := by
  unfold changesOf at h
  split at h <;> simp_all

theorem changesOf_timers (h : (changesOf i s).timers = true) : (∃ x, i = .ldDt x) ∨ ∃ x, i = .ldSt x := by
  unfold changesOf at h
  split at h <;> simp_all

theorem changesOf_hiresMode (h : (changesOf i s).hiresMode = true) : (∃ u, i = .low u) ∨ ∃ u, i = .high u := by
  unfold changesOf at h
  split at h <;> simp_all

theorem changesOf_grid (h : (changesOf i s).grid = true) :
    (∃ u, i = .cls u) ∨ (∃ u n, i = .scd u n) ∨ (∃ u n, i = .scu u n) ∨ (∃ u, i = .scr u)
      ∨ (∃ u, i = .scl u) ∨ ∃ x y n, i = .drw x y n := by
  unfold changesOf at h
  split at h <;> simp_all

/-! ### Where a row of the matrix names less than `Changes` does -/

/-- RET gives up an entry but does not clear it (R87). -/
theorem exec_ret_stack {n : Nibble} (h : exec (.ret n) s = .next t) : t.stack = s.stack := by
  simp only [exec, execRet] at h
  split at h <;> cases h <;> rfl

theorem exec_ldDt_sound {x : Reg} (h : exec (.ldDt x) s = .next t) : t.sound = s.sound := by cases h; rfl

theorem exec_ldSt_delay {x : Reg} (h : exec (.ldSt x) s = .next t) : t.delay = s.delay := by cases h; rfl

/-! ### From the execution to the cycle -/

/-- Nothing that a row depends on is moved by the provisional advance. -/
theorem changesOf_advance (i : Instr) (s : State) : changesOf i s.advance = changesOf i s := by cases i <;> rfl

theorem result_eq_some_of_results {o : Outside} {r : CycleResult} {rs : List CycleResult} (h : o.results = r :: rs) :
    o.result = some r := by rw [Outside.result, h]; rfl

/-- A cycle that changes `Draw` completed. -/
theorem completed_of_draw_ne (h : step s = .next t) (hne : t.draw ≠ s.draw) :
    ∃ d, t.outside.result = some (.completed d) := by
  obtain ⟨t', r, ht', hr, hend⟩ := step_returns (exec_of_step h).1
  obtain rfl : t' = t := Host.Outcome.next.inj (ht'.symm.trans h)
  obtain rfl | ⟨f, -, -, hdraw⟩ := hend
  · exact ⟨_, result_eq_some_of_results hr⟩
  · exact absurd hdraw hne

/-! ### The statement -/

/-- Settles O17: what a cycle changed is named in the row of its instruction, and each column of the rows lists the
instructions that name it. -/
theorem onlyTheNamedInstructionsWriteEachElement : Obligations.OnlyTheNamedInstructionsWriteEachElement := by
  intro s t i hstep hdecode
  have hexec := (exec_of_step hstep).2
  rw [hdecode] at hexec
  have keeps := exec_keeps hexec
  rw [changesOf_advance] at keeps
  have named {flag : Bool} {kept : Prop} (hkept : flag = false → kept) (hne : ¬ kept) : flag = true :=
    Bool.eq_true_of_not_eq_false (mt hkept hne)
  refine ⟨fun r hne => writesReg_of_mem_changesOf (not_imp_comm.1 (keeps.regs r) hne),
    fun ⟨a, hne⟩ => stores_of_mem_changesOf (not_imp_comm.1 (keeps.memory a) hne),
    fun hne => changesOf_i (named keeps.i hne),
    fun hne => changesOf_pc (named keeps.pc hne),
    fun hne => ?stack,
    fun hne => changesOf_stack (named (fun h => (keeps.stack h).2) hne),
    fun hne => changesOf_rpl (named keeps.rpl hne),
    fun hne => ?delay,
    fun hne => ?sound,
    keeps.fixed.1,
    fun hne => changesOf_hiresMode (named keeps.hiresMode hne),
    fun hne => changesOf_grid (named keeps.grid hne),
    completed_of_draw_ne hstep⟩
  case stack =>
    obtain hcall | ⟨u, rfl⟩ := changesOf_stack (named (fun h => (keeps.stack h).1) hne)
    · exact hcall
    · exact absurd (exec_ret_stack hexec) hne
  case delay =>
    obtain hdt | ⟨x, rfl⟩ := changesOf_timers (named (fun h => (keeps.timers h).1) hne)
    · exact hdt
    · exact absurd (exec_ldSt_delay hexec) hne
  case sound =>
    obtain ⟨x, rfl⟩ | hst := changesOf_timers (named (fun h => (keeps.timers h).2) hne)
    · exact absurd (exec_ldDt_sound hexec) hne
    · exact hst

end Sys2Proof.Machine

/-! The statements on how a cycle ends. One case split over `exec` says which fault each instruction raises and that it
completes with its own draw indication otherwise (`exec_ends`). -/

namespace Sys2Proof.Machine

variable {w : Word} {scrollUp : Bool} {i : Instr} {f : Fault} {s t : State}

/-! ### Which fault an execution raises -/

/-- The fault of an instruction, with its word (60_exceptions.md R152 to R154); `none` when it completes. -/
def faultOf (i : Instr) (s : State) : Option Fault :=
  match i with
  | .ret _ => if s.sp.val = 0 then some (.stackUnderflow (encode i)) else none
  | .call _ => if stackDepth s.mode ≤ s.sp.val then some (.stackOverflow (encode i)) else none
  | _ => if isIllegalInstr i then some (.illegalOpcode (encode i)) else none

/-- Every execution completes with the draw indication of its instruction (R141), or raises the instruction's fault. -/
theorem exec_ends (i : Instr) (s : State) : (faultOf i s = none ∧ ∃ u, exec i s = complete (setsDraw i) u)
    ∨ ∃ f, faultOf i s = some f ∧ exec i s = raise f s := by
  cases i
  case ret u =>
    simp only [exec, execRet, faultOf]
    split
    · exact .inr ⟨_, rfl, rfl⟩
    · exact .inl ⟨rfl, _, rfl⟩
  case call nnn =>
    simp only [exec, execCall, faultOf]
    split
    · exact .inr ⟨_, rfl, rfl⟩
    · exact .inl ⟨rfl, _, rfl⟩
  case drw x y n =>
    simp only [exec, execDrw]
    split <;> exact .inl ⟨rfl, _, rfl⟩
  case ldVxK x =>
    simp only [exec, execLdVxK]
    split <;> exact .inl ⟨rfl, _, rfl⟩
  case illegal5 | illegal8XY8 | illegal8XY9 | illegal8XYA | illegal8XYB | illegal8XYC | illegal8XYD | illegal8XYF
      | illegal9 | illegalE | illegalF => exact .inr ⟨_, rfl, rfl⟩
  -- Every other instruction has no fault to raise.
  all_goals exact .inl ⟨rfl, _, rfl⟩

/-- The latest result of an execution is a fault exactly when the instruction has that fault. -/
theorem result_eq_faulted_iff (h : exec i s = .next t) :
    t.outside.result = some (.faulted f) ↔ faultOf i s = some f := by
  obtain ⟨hnone, u, hcomplete⟩ | ⟨g, hsome, hraise⟩ := exec_ends i s
  · rw [hnone]
    exact ⟨fun hresult => absurd hresult (result_ne_faulted_of_complete (hcomplete.symm.trans h)), nofun⟩
  · obtain ⟨t', ht', hfaulted⟩ := raise_spec g s
    obtain rfl : t' = t := Host.Outcome.next.inj ((hraise.trans ht').symm.trans h)
    rw [hfaulted.result.1, hsome, Option.some.injEq, Option.some.injEq, CycleResult.faulted.injEq]

/-- The three ways to fault. -/
theorem faultOf_eq_some_iff : faultOf i s = some f ↔
    (isIllegalInstr i = true ∧ f = .illegalOpcode (encode i))
      ∨ ((∃ nnn, i = .call nnn) ∧ stackDepth s.mode ≤ s.sp.val ∧ f = .stackOverflow (encode i))
      ∨ ((∃ u, i = .ret u) ∧ s.sp.val = 0 ∧ f = .stackUnderflow (encode i)) := by
  unfold faultOf
  split
  next => simp [isIllegalInstr, eq_comm (a := f)]
  next => simp [isIllegalInstr, eq_comm (a := f)]
  next => simp_all [eq_comm (a := f)]

/-! ### The words of CALL and RET -/

theorem decode_ret (hT : w.toNat / 4096 = 0) (hNN : w.toNat % 256 = 0xEE) : decode scrollUp w = .ret (fieldX w) := by
  have hnn : fieldNN w = 0xEE#8 := BitVec.eq_of_toNat_eq (by rw [fieldNN_toNat, hNN]; rfl)
  simp [decode, decode0, fieldT_eq_of_toNat (t := 0x0#4) hT, hnn]

theorem decode_eq_call_iff : (∃ nnn, decode scrollUp w = .call nnn) ↔ w.toNat / 4096 = 2 := by
  refine ⟨fun ⟨nnn, h⟩ => ?_, fun h => ⟨_, decode_call h⟩⟩
  rw [← (decode_isReading scrollUp w).2, h, encode, nibbleAddr_toNat, BitVec.toNat_ofNat]
  omega

theorem decode_eq_ret_iff :
    (∃ u, decode scrollUp w = .ret u) ↔ w.toNat / 4096 = 0 ∧ w.toNat % 256 = 0xEE := by
  refine ⟨fun ⟨u, h⟩ => ?_, fun h => ⟨_, decode_ret h.1 h.2⟩⟩
  rw [← (decode_isReading scrollUp w).2, h, encode, nibblesByte_toNat, BitVec.toNat_ofNat, BitVec.toNat_ofNat]
  omega

/-! ### The statements -/

/-- Settles O11: the instruction's fault, with the condition on the instruction read as one on its word. -/
theorem cycleFaultsExactlyWhereTheSpecSaysSo : Obligations.CycleFaultsExactlyWhereTheSpecSaysSo := by
  intro s t f hstep
  rw [result_eq_faulted_iff (exec_of_step hstep).2, faultOf_eq_some_iff, isIllegalInstr_decode, decode_eq_call_iff,
    decode_eq_ret_iff, (decode_isReading _ _).2, and_assoc]
  rfl

/-- Settles O12: the table of R79. -/
theorem cycleMovesPcAsTheTableSays : Obligations.CycleMovesPcAsTheTableSays := fun _ _ => step_pc

/-- Settles O15: an execution completes with its own draw indication or raises a fault, which writes nothing. -/
theorem drawIsSetExactlyByDisplayInstructions : Obligations.DrawIsSetExactlyByDisplayInstructions := by
  intro s t hstep
  have hexec := (exec_of_step hstep).2
  obtain ⟨-, u, hcomplete⟩ | ⟨f, hfault, hraise⟩ := exec_ends (decode s.outside.params.scrollUpEnabled s.fetch) s.advance
  · refine ⟨fun ⟨f, hresult⟩ => absurd hresult (result_ne_faulted_of_complete (hcomplete.symm.trans hexec)), fun _ => ?_⟩
    rw [complete_next (hcomplete.symm.trans hexec)]
  · refine ⟨fun _ => ?_, fun hno => absurd ((result_eq_faulted_iff hexec).2 hfault) (hno f)⟩
    cases hraise.symm.trans hexec
    rfl

end Sys2Proof.Machine

/-! The statements on a restored snapshot and on the reset state. A restored snapshot is the captured state beside another
record, and the reset state is a state after power-on. -/

namespace Sys2Proof.Machine

/-! ### Snapshots -/

/-- A snapshot of a core with the same parameters is taken (R41; log 15). -/
theorem restore_of_params_eq {snapshot s : State} (h : snapshot.outside.params = s.outside.params) :
    restore snapshot s = .next { snapshot with outside := s.outside } := if_pos h

/-- Cores in the same Machine State that make a cycle each, on one draw if it is RND, end in the same Machine State with the
same result (R42). -/
theorem step_sameMachine {s u t v : State} (hsame : SameMachine s u) (hparams : s.outside.params = u.outside.params)
    (ht : step s = .next t) (hv : step u = .next v)
    (hdraw : (∃ x nn, decode s.outside.params.scrollUpEnabled s.fetch = .rnd x nn) →
      Config.freeDraw s.outside.draws = Config.freeDraw u.outside.draws) :
    SameMachine t v ∧ t.outside.result = v.outside.result := by
  obtain ⟨t', r, k, ht', hresults, -, hv'⟩ :=
    step_endAlike u.outside.draws u.outside.results (exec_of_step ht).1 hdraw
  rw [← hsame.eq_withRecord hparams] at hv'
  obtain rfl : t' = t := Host.Outcome.next.inj (ht'.symm.trans ht)
  obtain rfl := Host.Outcome.next.inj (hv'.symm.trans hv)
  exact ⟨sameMachine_withRecord .., result_eq_some_of_results hresults⟩

/-- Settles O19: the restored state is the captured one beside this core's record, so determinism replays the run. -/
theorem restoredSnapshotReplaysTheRun : Obligations.RestoredSnapshotReplaysTheRun := by
  refine ⟨fun run s u hparams => ?_, fun s u t v => step_sameMachine⟩
  refine ⟨{ s with outside := u.outside }, restore_of_params_eq hparams.symm, rfl, rfl, rfl, rfl, fun hdraws => ?_⟩
  exact sameMachineSameDrawsSameRun run s { s with outside := u.outside } rfl hparams.symm hdraws

/-! ### Reset -/

/-- Reset is a power-on in CosmacVIP mode with the default parameters and an empty record (log 1). -/
theorem reset_eq_powerOn : State.reset = powerOn .cosmacVIP State.reset.outside := rfl

/-- Settles O20: power-on meets the invariant, and the record of reset is empty. -/
theorem resetStateMeetsTheInvariant : Obligations.ResetStateMeetsTheInvariant :=
  inv_powerOn .cosmacVIP (o := State.reset.outside) nofun

end Sys2Proof.Machine

/-! The other statements of spec/41_control.md. CALL and RET complete after one write of the stack, its pointer and `PC`
(`complete_setStack_spec`); RETRY0, JP and the compare skips complete after a write of `PC`. -/

namespace Sys2Proof.Machine

/-! ### The call stack -/

/-- A cycle that completes after a write of the stack, its pointer and `PC`. -/
theorem complete_setStack_spec (d : Bool) (s : State) (stack : Vector Word 16) (sp : Fin 17) (pc : Word) :
    ∃ t, complete d { s with stack := stack, sp := sp, pc := pc } = .next t ∧ Completed d s t
      ∧ Keeps { pc := true, stack := true } s t ∧ t.pc = pc ∧ t.sp = sp ∧ t.stack = stack := by
  obtain ⟨t, ht, hcompleted, hkeeps, -⟩ := complete_spec (d := d) (by rfl) (keeps_setStack s stack sp pc)
  refine ⟨t, ht, hcompleted, hkeeps, complete_pc ht, ?_⟩
  rw [complete_next ht]
  exact ⟨rfl, rfl⟩

theorem exec_ret_of_entry {s : State} (h : s.sp.val ≠ 0) (u : Nibble) :
    exec (.ret u) s = complete false (s.pop.setPc s.topOfStack) := if_neg h

theorem exec_ret_of_empty {s : State} (h : s.sp.val = 0) (u : Nibble) :
    exec (.ret u) s = raise (.stackUnderflow (encode (.ret u))) s := if_pos h

theorem exec_call_of_room {s : State} (h : s.sp.val < stackDepth s.mode) (nnn : Addr) :
    exec (.call nnn) s = complete false ((s.push s.pc).setPc (addrOperand nnn)) := if_neg (Nat.not_le.2 h)

theorem exec_call_of_full {s : State} (h : stackDepth s.mode ≤ s.sp.val) (nnn : Addr) :
    exec (.call nnn) s = raise (.stackOverflow (encode (.call nnn))) s := if_pos h

theorem topOfStack_eq {s : State} {k : Fin 16} (h : s.sp.val = k.val + 1) : s.topOfStack = s.stack[k] := by
  simp [State.topOfStack, h]

theorem addrOperand_toNat (nnn : Addr) : (addrOperand nnn).toNat = nnn.toNat := by
  rw [addrOperand_eq, BitVec.toNat_ofNat]
  omega

theorem stackDepth_eq (m : Mode) : stackDepth m = if m = .cosmacVIP then 12 else 16 := by cases m <;> rfl

theorem encode_ret (u : Nibble) : encode (.ret u) = BitVec.ofNat 16 (u.toNat * 256 + 0xEE) := by
  apply BitVec.eq_of_toNat_eq
  rw [encode, nibblesByte_toNat, BitVec.toNat_ofNat, BitVec.toNat_ofNat, BitVec.toNat_ofNat]
  omega

theorem encode_call (nnn : Addr) : encode (.call nnn) = BitVec.ofNat 16 (0x2000 + nnn.toNat) := by
  apply BitVec.eq_of_toNat_eq
  rw [encode, nibbleAddr_toNat, BitVec.toNat_ofNat, BitVec.toNat_ofNat]
  omega

/-! ### The statements on the call stack -/

/-- Settles O24: a completed pop, the entry left in its slot. -/
theorem retPopsTheReturnAddress : Obligations.RetPopsTheReturnAddress := by
  intro s u k hsp
  obtain ⟨t, ht, hcompleted, hkeeps, hpc, htsp, hstack⟩ :=
    complete_setStack_spec false s s.stack s.pop.sp s.topOfStack
  refine ⟨t, (exec_ret_of_entry (by omega) u).trans ht, hcompleted, hkeeps, hpc.trans (topOfStack_eq hsp), ?_, hstack⟩
  rw [htsp, pop_sp_val]
  omega

/-- Settles O26: a completed push, the address written to the slot that `SP` named. -/
theorem callPushesTheReturnAddress : Obligations.CallPushesTheReturnAddress := by
  intro s nnn hroom
  obtain ⟨t, ht, hcompleted, hkeeps, hpc, htsp, hstack⟩ :=
    complete_setStack_spec false s (s.push s.pc).stack (s.push s.pc).sp (addrOperand nnn)
  refine ⟨t, (exec_call_of_room hroom nnn).trans ht, hcompleted, hkeeps, ?_, ?_, fun k => ?_⟩
  · rw [hpc, addrOperand_toNat]
  · rw [htsp, push_sp_val _ (hroom.trans_le (stackDepth_le _))]
  · rw [hstack]
    simp [Vector.getElem_setIfInBounds, eq_comm]

/-- Settles O25: each fault with its word, the depth being that of the mode. -/
theorem emptyAndFullStackFault : Obligations.EmptyAndFullStackFault := by
  intro s u nnn
  refine ⟨fun hempty => ?_, fun hfull => ?_⟩
  · rw [exec_ret_of_empty hempty, encode_ret]
    exact raise_spec _ s
  · rw [exec_call_of_full (by rw [stackDepth_eq, hfull]), encode_call]
    exact raise_spec _ s

/-- Settles O27: RET finds on top what CALL pushed there. -/
theorem callThenRetResumesAfterTheCall : Obligations.CallThenRetResumesAfterTheCall := by
  intro s nnn u hroom
  obtain ⟨t, hcall, -, -, -, htsp, hslots⟩ := callPushesTheReturnAddress s nnn hroom
  obtain ⟨r, hret, hcompleted, -, hpc, hrsp, -⟩ :=
    retPopsTheReturnAddress { t with pc := BitVec.ofNat 16 (t.pc.toNat + 2) } u
      ⟨s.sp.val, hroom.trans_le (stackDepth_le _)⟩ htsp
  exact ⟨t, r, hcall, hret, hpc.trans ((hslots _).trans (if_pos rfl)), Fin.ext hrsp, hcompleted.result.1⟩

/-! ### The statements on retries, jumps and compare skips -/

theorem sub_two_toNat (p : Word) : (p - 2#16).toNat = (p.toNat + 65534) % 65536 := by
  rw [BitVec.toNat_sub, BitVec.toNat_ofNat]
  omega

/-- Settles O23: a completed write of `PC`. -/
theorem retry0RewindsPc : Obligations.Retry0RewindsPc := by
  intro s nnn
  obtain ⟨t, ht, hcompleted, hkeeps, hpc⟩ := complete_setPc_spec false s (s.pc - 2#16)
  exact ⟨t, ht, hcompleted, hkeeps, hpc ▸ sub_two_toNat s.pc⟩

/-- Settles O28: a completed write of `PC`. -/
theorem jpTakesItsTarget : Obligations.JpTakesItsTarget := by
  intro s nnn
  obtain ⟨t, ht, hcompleted, hkeeps, hpc⟩ := complete_setPc_spec false s (addrOperand nnn)
  exact ⟨t, ht, hcompleted, hkeeps, hpc ▸ addrOperand_toNat nnn⟩

/-- A cycle that completes after a skip on equal bytes. -/
theorem complete_skipIf_eq_spec (s : State) (a b : Byte) : ∃ t, complete false (s.skipIf (a == b)) = .next t
    ∧ Completed false s t ∧ Keeps { pc := true } s t
    ∧ t.pc.toNat = (s.pc.toNat + if a.toNat = b.toNat then 2 else 0) % 65536 := by
  simpa only [beq_iff_eq, BitVec.toNat_inj] using complete_skipIf_spec false s (a == b)

/-- A cycle that completes after a skip on different bytes. -/
theorem complete_skipIf_ne_spec (s : State) (a b : Byte) : ∃ t, complete false (s.skipIf (a != b)) = .next t
    ∧ Completed false s t ∧ Keeps { pc := true } s t
    ∧ t.pc.toNat = (s.pc.toNat + if a.toNat = b.toNat then 0 else 2) % 65536 := by
  simpa only [bne_iff_ne, ne_eq, ite_not, BitVec.toNat_inj] using complete_skipIf_spec false s (a != b)

/-- Settles O29: each of the four instructions completes after its skip. -/
theorem compareSkipsAdvanceTwoMoreBytes : Obligations.CompareSkipsAdvanceTwoMoreBytes := fun s x y nn =>
  ⟨complete_skipIf_eq_spec s (s.reg x) nn, complete_skipIf_ne_spec s (s.reg x) nn,
    complete_skipIf_eq_spec s (s.reg x) (s.reg y), complete_skipIf_ne_spec s (s.reg x) (s.reg y)⟩

end Sys2Proof.Machine

/-! The statements on the instructions that write one register, `I`, the RPL slots or one timer, and on the wait for a
key. -/

namespace Sys2Proof.Machine

/-! ### Copies and indices -/

/-- Settles O32: two completed writes of `V[X]`. -/
theorem addImmAndCopyWriteOnlyVX : Obligations.AddImmAndCopyWriteOnlyVX := by
  intro s x y nn
  obtain ⟨t, ht, hcompleted, hkeeps, hreg⟩ := complete_setReg_spec false s x (s.reg x + nn)
  exact ⟨⟨t, ht, hcompleted, hkeeps, hreg ▸ BitVec.toNat_add _ _⟩, complete_setReg_spec false s x (s.reg y)⟩

/-- A cycle that completes after a write of `I` alone, given by its number. -/
theorem complete_setI_toNat_spec (s : State) {w : Word} {n : Nat} (h : w.toNat = n) :
    ∃ t, complete false (s.setI w) = .next t ∧ Completed false s t ∧ Keeps { i := true } s t ∧ t.i.toNat = n := by
  obtain ⟨t, ht, hcompleted, hkeeps, hi, -⟩ := complete_setI_spec false rfl (keeps_refl {} s) w
  exact ⟨t, ht, hcompleted, hkeeps, (congrArg _ hi).trans h⟩

/-- Settles O39: three completed writes of `I`, with their numbers. -/
theorem indexInstructionsSetOnlyI : Obligations.IndexInstructionsSetOnlyI := by
  intro s x nnn
  have hsum : (s.i + (s.reg x).zeroExtend 16).toNat = (s.i.toNat + (s.reg x).toNat) % 65536 := by
    rw [BitVec.toNat_add, BitVec.toNat_setWidth]
    omega
  exact ⟨complete_setI_toNat_spec s (addrOperand_toNat nnn), complete_setI_toNat_spec s hsum,
    complete_setI_toNat_spec s (BitVec.toNat_ofNat ..)⟩

/-! ### The RPL slots and the timers -/

theorem complete_rpl {d : Bool} {u t : State} (h : complete d u = .next t) : t.rpl = u.rpl := by cases h; rfl

/-- Settles O43: a completed save; `min(X, 7)` bounds no slot that `X` does not. -/
theorem saveRplCopiesTheFirstRegisters : Obligations.SaveRplCopiesTheFirstRegisters := by
  intro s x
  obtain ⟨t, ht, hcompleted, hkeeps, -⟩ := complete_spec (d := false) (by rfl) (keeps_saveRpl s x)
  refine ⟨t, ht, hcompleted, hkeeps, fun k => ?_⟩
  have hslot : k.val ≤ min x.toNat 7 ↔ k.val ≤ x.toNat := by omega
  have hnumber : (BitVec.ofNat 4 k.val).toNat = k.val := by rw [BitVec.toNat_ofNat]; omega
  simp only [complete_rpl ht, Fin.getElem_fin, rpl_saveRpl, hslot, State.reg, hnumber]

/-- A cycle that completes after a write of the timers. -/
theorem complete_setTimers_spec (s : State) (delay sound : Byte) :
    ∃ t, complete false { s with delay := delay, sound := sound } = .next t ∧ Completed false s t
      ∧ Keeps { timers := true } s t ∧ t.delay = delay ∧ t.sound = sound := by
  obtain ⟨t, ht, hcompleted, hkeeps, -⟩ := complete_spec (d := false) (by rfl) (keeps_setTimers s delay sound)
  refine ⟨t, ht, hcompleted, hkeeps, ?_⟩
  rw [complete_next ht]
  exact ⟨rfl, rfl⟩

/-- Settles O45: a completed write of `V[X]`, and two of the timers that keep one of them. -/
theorem timerInstructionsMoveOneByte : Obligations.TimerInstructionsMoveOneByte := by
  intro s x
  obtain ⟨t, ht, hcompleted, hkeeps, hdelay, hsound⟩ := complete_setTimers_spec s s.delay (s.reg x)
  exact ⟨complete_setReg_spec false s x s.delay, complete_setTimers_spec s (s.reg x) s.sound,
    ⟨t, ht, hcompleted, hkeeps, hsound, hdelay⟩⟩

/-! ### The wait for a key -/

/-- The search answers the key that is down below which none is (D17). -/
theorem leastKeyDown_eq_some {s : State} {k : Fin 16} (hdown : s.input[k] = true)
    (hleast : ∀ j : Fin 16, j < k → s.input[j] = false) : leastKeyDown s = some k.val := by
  have hlatch (j : Fin 16) : s.input.getD j.val false = s.input[j] := by simp [Vector.getD]
  rw [leastKeyDown, List.find?_range_eq_some]
  refine ⟨(hlatch k).trans hdown, List.mem_range.2 k.isLt, fun j hj => ?_⟩
  simpa [hlatch ⟨j, hj.trans k.isLt⟩] using hleast ⟨j, hj.trans k.isLt⟩ hj

/-- Settles O46: a completed write of `V[X]` with the least key, or a completed retry. -/
theorem waitForKeyTakesTheLeastKeyOrRetries : Obligations.WaitForKeyTakesTheLeastKeyOrRetries := by
  intro s x
  refine ⟨fun k hdown hleast => ?_, fun hnone => ?_⟩
  · have hexec : exec (.ldVxK x) s = complete false (s.setReg x (BitVec.ofNat 8 k.val)) := by
      simp only [exec, execLdVxK, leastKeyDown_eq_some hdown hleast]
    obtain ⟨t, ht, hcompleted, hkeeps, hreg⟩ := complete_setReg_spec false s x (BitVec.ofNat 8 k.val)
    refine ⟨t, hexec.trans ht, hcompleted, hkeeps, ?_⟩
    rw [hreg, BitVec.toNat_ofNat]
    omega
  · obtain ⟨t, ht, hcompleted, hkeeps, hpc⟩ := complete_setPc_spec false s (s.pc - 2#16)
    exact ⟨t, (exec_ldVxK_of_no_key x hnone).trans ht, hcompleted, hkeeps, hpc ▸ sub_two_toNat s.pc⟩

end Sys2Proof.Machine

/-! The other statements of spec/45_display.md: the scrolls, the big sprite and the sprite drawn twice. The big sprite is read
as the 8-wide one is: the list of its set bits holds the bits `SpriteBit16` names. -/

namespace Sys2Proof.Machine

/-! ### Scrolls -/

/-- The vertical distance is the count, rounded down to even in lores (R140). -/
theorem scrollRows_eq (hires : Bool) (n : Nat) : scrollRows hires n = if hires = true then n else n / 2 * 2 := by
  have heven : n - n % 2 = n / 2 * 2 := by omega
  rw [scrollRows, heven]

/-- Settles O50: two completed writes of the shifted grid. -/
theorem horizontalScrollsMoveEveryPixel : Obligations.HorizontalScrollsMoveEveryPixel := by
  rintro s u d rfl
  obtain ⟨t, ht, hcompleted, hkeeps, hgrid⟩ := complete_setGrid_spec true s (scrollRight (scrollColumns s.hiresMode) s.grid)
  obtain ⟨r, hr, hcompleted', hkeeps', hgrid'⟩ :=
    complete_setGrid_spec true s (scrollLeft (scrollColumns s.hiresMode) s.grid)
  exact ⟨⟨t, ht, hcompleted, hkeeps, fun x y hx _ => hgrid ▸ pixel_scrollRight _ _ hx y⟩,
    ⟨r, hr, hcompleted', hkeeps', fun x y _ _ => hgrid' ▸ pixel_scrollLeft _ _ x y⟩⟩

/-- Settles O51: two completed writes of the grid with its rows moved. -/
theorem verticalScrollsMoveEveryPixel : Obligations.VerticalScrollsMoveEveryPixel := by
  rintro s u n c rfl
  rw [← scrollRows_eq]
  obtain ⟨t, ht, hcompleted, hkeeps, hgrid⟩ :=
    complete_setGrid_spec true s (scrollDown (scrollRows s.hiresMode n.toNat) s.grid)
  obtain ⟨r, hr, hcompleted', hkeeps', hgrid'⟩ :=
    complete_setGrid_spec true s (scrollUp (scrollRows s.hiresMode n.toNat) s.grid)
  exact ⟨⟨t, ht, hcompleted, hkeeps, fun x y _ hy => hgrid ▸ pixel_scrollDown _ _ x hy⟩,
    ⟨r, hr, hcompleted', hkeeps', fun x y _ hy => hgrid' ▸ pixel_scrollUp _ _ x hy⟩⟩

/-! ### The set bits of the big sprite -/

/-- DRW with height 0 in hires draws the big sprite (R150). -/
theorem exec_drw_of_big {s : State} (h : s.hiresMode = true) (x y : Reg) :
    exec (.drw x y 0#4) s =
      let r := drawSprite16 s.view (s.reg x).toNat (s.reg y).toNat s.bigRows s.grid
      complete true (State.setReg { s with grid := r.1 } vf (rowCountFlag r.2)) :=
  if_pos (by simp [h])

theorem bigRows_length (s : State) : s.bigRows.length = 16 := by simp [State.bigRows]

theorem bigRows_getElem (s : State) (r : Nat) (h : r < s.bigRows.length) : s.bigRows[r] = s.bigRow r := by
  simp [State.bigRows]

/-- A row of two bytes, the one at the lower address on the left (R52). -/
theorem getMsbD_wordOfBytes (hi lo : Byte) {c : Nat} (hc : c < 16) :
    (wordOfBytes hi lo).getMsbD c = if c < 8 then hi.getLsbD (7 - c) else lo.getLsbD (15 - c) := by
  rw [wordOfBytes, BitVec.getMsbD_append]
  split_ifs with hlo hhi
  · omega
  · have hright : c - 8 < 8 := by omega
    have hbit : 7 - (c - 8) = 15 - c := by omega
    simp [BitVec.getMsbD, hright, hbit]
  · simp [BitVec.getMsbD, *]
  · omega

theorem spriteBit16_iff {s : State} {r c : Nat} :
    SpriteBit16 s r c ↔ r < 16 ∧ c < 16 ∧ (s.bigRow r).getMsbD c = true := by
  refine and_congr_right fun _ => and_congr_right fun hc => ?_
  rw [State.bigRow, getMsbD_wordOfBytes _ _ hc]

/-- A property of some set sprite pixel of one row, in the words of `SpriteBit16`. -/
theorem any_rowPixels_bigRow {s : State} {ox y r : Nat} (hr : r < 16) (f : Nat × Nat → Bool) :
    (rowPixels ox y (s.bigRow r)).any f = true ↔ ∃ c, SpriteBit16 s r c ∧ f (ox + c, y) = true := by
  simp only [List.any_eq_true, mem_rowPixels, spriteBit16_iff]
  constructor
  · rintro ⟨_, ⟨c, hc, hset, rfl⟩, hf⟩
    exact ⟨c, ⟨hr, hc, hset⟩, hf⟩
  · rintro ⟨c, ⟨-, hc, hset⟩, hf⟩
    exact ⟨_, ⟨c, hc, hset, rfl⟩, hf⟩

/-- A property of some set sprite pixel, in the words of `SpriteBit16`. -/
theorem any_spritePixels_bigRows {s : State} {ox oy : Nat} (f : Nat × Nat → Bool) :
    (spritePixels ox oy s.bigRows).any f = true ↔ ∃ r c, SpriteBit16 s r c ∧ f (ox + c, oy + r) = true := by
  simp only [List.any_eq_true, mem_spritePixels, bigRows_length, bigRows_getElem, spriteBit16_iff]
  constructor
  · rintro ⟨_, ⟨r, c, hr, hc, hset, rfl⟩, hf⟩
    exact ⟨r, c, ⟨hr, hc, hset⟩, hf⟩
  · rintro ⟨r, c, ⟨hr, hc, hset⟩, hf⟩
    exact ⟨_, ⟨r, c, hr, hc, hset, rfl⟩, hf⟩

/-! ### What the big sprite does -/

section Sprite16
variable (s : State) (x y : Reg)

/-- The big sprite flips exactly the pixels that one of its set bits covers (R136, R138). -/
theorem pixel_drawSprite16 {px py : Nat} (hx : px < 128) (hy : py < 64) :
    pixel (drawSprite16 s.view (s.reg x).toNat (s.reg y).toNat s.bigRows s.grid).1 px py = true
      ↔ ¬ (pixel s.grid px py = true ↔ Touches s (SpriteBit16 s) x y px py) := by
  rw [drawSprite16, pixel_drawRows16 _ _ _ _ (by rw [bigRows_length]; omega), Bool.xor_iff_ne, Ne, Bool.eq_iff_iff,
    any_spritePixels_bigRows]
  simp only [covers_iff s.view _ _ hx hy, Touches]

/-- A row hits exactly when one of its set bits collides or is clipped (R138, D14). -/
theorem rowHits_iff {r : Nat} (hr : r < 16) :
    RowHits s x y r ↔ (rowPixels (spriteOrigin s.view (s.reg x).toNat (s.reg y).toNat).1
      ((spriteOrigin s.view (s.reg x).toNat (s.reg y).toNat).2 + r) (s.bigRow r)).any
        (fun p => hits s.view true s.grid p.1 p.2) = true := by
  simp only [any_rowPixels_bigRow hr, hits_iff, RowHits, true_and]

/-- The rows of the big sprite with their coordinates. -/
theorem zipIdx_bigRows (y : Nat) : s.bigRows.zipIdx y = (List.range 16).map fun r => (s.bigRow r, y + r) := by
  apply List.ext_getElem
  · simp [State.bigRows]
  · intro r _ _
    simp [State.bigRows]

open Classical in
/-- The big sprite counts the rows that hit. -/
theorem drawSprite16_count : (drawSprite16 s.view (s.reg x).toNat (s.reg y).toNat s.bigRows s.grid).2
    = ((Finset.range 16).filter fun r => RowHits s x y r).card := by
  rw [drawSprite16, drawRows16_count _ _ _ _ _ (by rw [bigRows_length]; omega), zipIdx_bigRows, List.countP_map,
    List.countP_eq_length_filter, Finset.card_def, Finset.filter_val, Finset.range_val, Multiset.range,
    Multiset.filter_coe, Multiset.coe_card]
  refine congrArg List.length (List.filter_congr fun r hr => ?_)
  rw [Bool.eq_iff_iff, decide_eq_true_iff, rowHits_iff s x y (List.mem_range.1 hr)]
  rfl

theorem rowCountFlag_toNat {n : Nat} (h : n ≤ 16) : (rowCountFlag n).toNat = n := by
  rw [rowCountFlag, BitVec.toNat_ofNat]
  omega

end Sprite16

/-- Settles O53: a completed write of the drawn grid and of the row count, which is at most 16 and so fits in `VF`. -/
theorem bigSpriteXorsAndCountsTheRowsThatHit : Obligations.BigSpriteXorsAndCountsTheRowsThatHit := by
  intro s x y hires
  obtain ⟨t, ht, hcompleted, hkeeps, hgrid, hflag⟩ := complete_draw_spec true s _ _
  refine ⟨t, (exec_drw_of_big hires x y).trans ht, hcompleted, hkeeps, fun px py hx hy => ?_, ?_⟩
  · rw [hgrid, pixel_drawSprite16 s x y hx hy]
  · rw [hflag, drawSprite16_count, rowCountFlag_toNat]
    classical exact (Finset.card_filter_le _ _).trans_eq (Finset.card_range 16)

/-! ### A sprite drawn twice -/

/-- The set bits of the sprite that DRW draws in a state, of either size. -/
def spriteBit (s : State) (n : Nibble) : Nat → Nat → Prop :=
  if s.hiresMode = true ∧ n = 0#4 then SpriteBit16 s else SpriteBit8 s n.toNat

/-- DRW flips exactly the pixels that the sprite covers, whichever its size. -/
theorem exec_drw_flips (s : State) (x y : Reg) (n : Nibble) : ∃ t, exec (.drw x y n) s = .next t
    ∧ Keeps { regs := [vf], grid := true } s t ∧ ∀ px py, px < 128 → py < 64 →
      (pixel t.grid px py = true ↔ ¬ (pixel s.grid px py = true ↔ Touches s (spriteBit s n) x y px py)) := by
  unfold spriteBit
  split
  next hbig =>
    obtain ⟨hires, rfl⟩ := hbig
    obtain ⟨t, ht, -, hkeeps, hpixels, -⟩ := bigSpriteXorsAndCountsTheRowsThatHit s x y hires
    exact ⟨t, ht, hkeeps, hpixels⟩
  next hsmall =>
    obtain ⟨t, ht, -, hkeeps, hpixels, -⟩ := drwXorsTheSpriteAndFlagsTheCollision s x y n hsmall
    exact ⟨t, ht, hkeeps, hpixels⟩

/-- After a DRW the same sprite covers the same pixels, wherever `PC` stands, when `VF` gives no coordinate. -/
theorem touches_of_keeps {s t : State} (hkeeps : Keeps { regs := [vf], grid := true, pc := true } s t) {x y : Reg}
    (hx : x ≠ vf) (hy : y ≠ vf) (n : Nibble) (px py : Nat) :
    Touches t (spriteBit t n) x y px py ↔ Touches s (spriteBit s n) x y px py := by
  obtain ⟨-, -, hwraparound, -, hparams⟩ := hkeeps.fixed
  have hread (a : Nat) : t.memRead a = s.memRead a := hkeeps.memory a (by simp)
  have hview : t.view = s.view := by simp only [State.view, hkeeps.hiresMode rfl, hwraparound, hparams]
  have hregX : t.reg x = s.reg x := hkeeps.regs x (by simpa using hx)
  have hregY : t.reg y = s.reg y := hkeeps.regs y (by simpa using hy)
  have hbit16 : SpriteBit16 t = SpriteBit16 s := by
    funext r c
    simp only [SpriteBit16, hread, hkeeps.i rfl]
  have hbit8 : SpriteBit8 t n.toNat = SpriteBit8 s n.toNat := by
    funext r c
    simp only [SpriteBit8, hread, hkeeps.i rfl]
  rw [spriteBit, hbit16, hbit8, hkeeps.hiresMode rfl, ← spriteBit, Touches, Touches, hview, hregX, hregY]

/-- Settles O54: the second drawing flips the pixels that the first one flipped. -/
theorem drawingTwiceRestoresTheGrid : Obligations.DrawingTwiceRestoresTheGrid := by
  intro s x y n hx hy
  obtain ⟨t, ht, hkeeps, hfirst⟩ := exec_drw_flips s x y n
  obtain ⟨r, hr, -, hsecond⟩ := exec_drw_flips { t with pc := BitVec.ofNat 16 (t.pc.toNat + 2) } x y n
  refine ⟨t, r, ht, hr, grid_ext fun px py hpx hpy => ?_⟩
  have hcovered := touches_of_keeps (t := { t with pc := BitVec.ofNat 16 (t.pc.toNat + 2) })
    { hkeeps with pc := nofun } hx hy n px py
  rw [Bool.eq_iff_iff, hsecond px py hpx hpy, hcovered, hfirst px py hpx hpy]
  tauto

end Sys2Proof.Machine
